-- ==== Sys2Proof/Word.lean ====
section
/-! DEFINITION. The machine's plain word types (00_scope.md R6, R11; 30_encoding.md R84). -/

namespace Sys2Proof

/-- One byte of a register, a memory cell or a slot. -/
abbrev Byte := BitVec 8

/-- `u64`: the content of a register, an address, an index, an immediate, a resolved value (R6).
The spec's name Word is its 16-bit width, so the model does not use that name for 64 bits (R12). -/
abbrev U64 := BitVec 64

/-- One 32-byte slot read as a 256-bit little-endian integer `W` (R84). -/
abbrev Slot := BitVec 256

end Sys2Proof
end

