-- ==== Sys2Proof/Syntax/Operand.lean ====
section
/-! DEFINITION. Width tags and operands, the abstract form of 30_encoding.md R81 and R82. -/

namespace Sys2Proof

/-- A width tag: Byte, Word, DWord, QWord, that is 1, 2, 4, 8 bytes (R82). -/
inductive Width where
  | byte
  | word
  | dword
  | qword
  deriving DecidableEq, Repr

/-- An operand: one of five kinds (R81). Every field of 64 bits holds any value (R6): a register
index of 16 or more is a legal operand that fails when it is resolved (10_state.md R23). -/
inductive Operand where
  /-- No operand; never valid where an instruction uses the position. -/
  | none
  /-- The constant `value`. -/
  | immediate (value : U64)
  /-- The low `width` bytes of register `index`. -/
  | register (width : Width) (index : U64)
  /-- The memory cell under key `address`, accessed with `width`. -/
  | memory (width : Width) (address : U64)
  /-- The memory cell under the key held in all 64 bits of register `index`, accessed with `width`. -/
  | memoryRegister (width : Width) (index : U64)
  deriving DecidableEq, Repr

end Sys2Proof
end

