-- ==== Sys2Proof/Syntax.lean ====
section
/-! DEFINITION. The closed instruction set: seven variants (00_scope.md R2, 30_encoding.md R80). -/

namespace Sys2Proof

/-- An instruction, its operand positions in the order of 30_encoding.md R80. One constructor per row
of spec/opcode_table.json. -/
inductive Instr where
  /-- Host call; `idx` is a source (46_call.md R175). -/
  | call (idx : Operand)
  /-- Move; `src` is a source, `dst` a destination (42_mov.md R150). -/
  | mov (src dst : Operand)
  /-- Jump; `src` is a source (45_jumps.md R165). -/
  | jmp (src : Operand)
  /-- Jump if Zero, clearing it; `src` is a source (45_jumps.md R166). -/
  | jz (src : Operand)
  /-- Jump if not Zero; `src` is a source (45_jumps.md R167). -/
  | jnz (src : Operand)
  /-- Compare; both are sources (44_cmp.md R160). -/
  | cmp (value comparator : Operand)
  /-- Add; `value` and `source` are sources, `dst` a destination (43_add.md R155). -/
  | add (value source dst : Operand)
  deriving DecidableEq, Repr

end Sys2Proof
end

