-- ==== Sys2Proof/WellFormed.lean ====
section
/-! DEFINITION. The shape of an instruction (40_operands.md R121): which operand kinds a source and a
destination position admit. The form itself admits every kind in every position (30_encoding.md R81),
and every instruction has an encoding; an ill-shaped one raises `InvalidOperand` when it executes. -/

namespace Sys2Proof

/-- A source position must not be None (R121). -/
def Operand.sourceShape : Operand → Bool
  | .none => false
  | .immediate _ | .register _ _ | .memory _ _ | .memoryRegister _ _ => true

/-- A destination position must be Register, Memory or MemoryRegister (R121). -/
def Operand.destShape : Operand → Bool
  | .none | .immediate _ => false
  | .register _ _ | .memory _ _ | .memoryRegister _ _ => true

/-- The shape check over all operand positions (R121, with the roles of 30_encoding.md R80). -/
def Instr.wellFormed : Instr → Bool
  | .call idx => idx.sourceShape
  | .mov src dst => src.sourceShape && dst.destShape
  | .jmp src => src.sourceShape
  | .jz src => src.sourceShape
  | .jnz src => src.sourceShape
  | .cmp value comparator => value.sourceShape && comparator.sourceShape
  | .add value source dst => value.sourceShape && source.sourceShape && dst.destShape

end Sys2Proof
end

