-- ==== Sys2Proof/Decode.lean ====
section
/-! DEFINITION. The decoder and the encoder of the 32-byte slot (30_encoding.md section 2, the spec's
decision D1). `decode` is total on any 256 bits, `decodeBytes` on any list of bytes; both reject by name. -/

namespace Sys2Proof

/-- Why a slot is Invalid: the six conditions of R90, and a byte list that is not one slot (R84). -/
inductive Reject where
  /-- The byte list does not hold exactly 32 bytes (R84). -/
  | notOneSlot
  /-- Condition 1: the opcode is above 6. -/
  | opcode
  /-- Condition 2: `rsv` is not 0. -/
  | reserved
  /-- Condition 3: a descriptor has one of its top three bits set. -/
  | descriptorBits
  /-- Condition 3: a descriptor has kind 5, 6 or 7. -/
  | kind
  /-- Condition 4: None or Immediate with a width code other than 0. -/
  | widthCode
  /-- Condition 5: None with a payload other than 0. -/
  | nonePayload
  /-- Condition 6: a position the variant does not have holds a descriptor or payload other than 0. -/
  | unusedPosition
  deriving DecidableEq, Repr

/-! ### Fields of a slot (R84) -/

def Slot.opcode (W : Slot) : Byte := W.extractLsb' 0 8
def Slot.d0 (W : Slot) : Byte := W.extractLsb' 8 8
def Slot.d1 (W : Slot) : Byte := W.extractLsb' 16 8
def Slot.d2 (W : Slot) : Byte := W.extractLsb' 24 8
def Slot.rsv (W : Slot) : BitVec 32 := W.extractLsb' 32 32
def Slot.p0 (W : Slot) : U64 := W.extractLsb' 64 64
def Slot.p1 (W : Slot) : U64 := W.extractLsb' 128 64
def Slot.p2 (W : Slot) : U64 := W.extractLsb' 192 64

/-! ### Decoding -/

/-- The width a width code names: 2^wcode bytes (R85). -/
def Width.ofCode (c : BitVec 2) : Width :=
  match c.toNat with
  | 0 => .byte
  | 1 => .word
  | 2 => .dword
  | _ => .qword

/-- One operand position from its descriptor and payload (R85, R86; conditions 3 to 5 of R90). -/
def decodeOperand (d : Byte) (p : U64) : Except Reject Operand :=
  if d.extractLsb' 5 3 ≠ 0#3 then .error .descriptorBits
  else
    match (d.extractLsb' 0 3).toNat with
    | 0 =>
      if d.extractLsb' 3 2 ≠ 0#2 then .error .widthCode
      else if p ≠ 0#64 then .error .nonePayload
      else .ok .none
    | 1 => if d.extractLsb' 3 2 ≠ 0#2 then .error .widthCode else .ok (.immediate p)
    | 2 => .ok (.register (Width.ofCode (d.extractLsb' 3 2)) p)
    | 3 => .ok (.memory (Width.ofCode (d.extractLsb' 3 2)) p)
    | 4 => .ok (.memoryRegister (Width.ofCode (d.extractLsb' 3 2)) p)
    | _ => .error .kind

/-- A position the variant does not have must be all zero (R88; condition 6 of R90). -/
def unusedOK (d : Byte) (p : U64) : Bool := d == 0#8 && p == 0#64

/-- Format F1: position 0 only (R88). -/
def decodeF1 (W : Slot) (mk : Operand → Instr) : Except Reject Instr :=
  if !(unusedOK W.d1 W.p1 && unusedOK W.d2 W.p2) then .error .unusedPosition
  else
    match decodeOperand W.d0 W.p0 with
    | .error r => .error r
    | .ok a => .ok (mk a)

/-- Format F2: positions 0 and 1 (R88). -/
def decodeF2 (W : Slot) (mk : Operand → Operand → Instr) : Except Reject Instr :=
  if !unusedOK W.d2 W.p2 then .error .unusedPosition
  else
    match decodeOperand W.d0 W.p0, decodeOperand W.d1 W.p1 with
    | .error r, _ => .error r
    | .ok _, .error r => .error r
    | .ok a, .ok b => .ok (mk a b)

/-- Format F3: positions 0, 1 and 2 (R88). -/
def decodeF3 (W : Slot) (mk : Operand → Operand → Operand → Instr) : Except Reject Instr :=
  match decodeOperand W.d0 W.p0, decodeOperand W.d1 W.p1, decodeOperand W.d2 W.p2 with
  | .error r, _, _ => .error r
  | .ok _, .error r, _ => .error r
  | .ok _, .ok _, .error r => .error r
  | .ok a, .ok b, .ok c => .ok (mk a b c)

/-- `Decode(S)` (R90), the opcode values of R87. -/
def decode (W : Slot) : Except Reject Instr :=
  if W.rsv ≠ 0#32 then .error .reserved
  else
    match W.opcode.toNat with
    | 0 => decodeF1 W .call
    | 1 => decodeF2 W .mov
    | 2 => decodeF1 W .jmp
    | 3 => decodeF1 W .jz
    | 4 => decodeF1 W .jnz
    | 5 => decodeF2 W .cmp
    | 6 => decodeF3 W .add
    | _ => .error .opcode

/-- The little-endian number of a list of bytes: byte `k` stands at bits `8*k+7 : 8*k` (R84). -/
def natOfBytes : List Byte → Nat
  | [] => 0
  | b :: bs => b.toNat + 256 * natOfBytes bs

/-- `n` bytes of a number, the least significant first. -/
def bytesOfNat : Nat → Nat → List Byte
  | 0, _ => []
  | n + 1, v => BitVec.ofNat 8 v :: bytesOfNat n (v / 256)

/-- The 32 bytes `S[0]` to `S[31]` of a slot (R84). -/
def Slot.toBytes (W : Slot) : List Byte := bytesOfNat 32 W.toNat

/-- The slot of a list of bytes (R84). -/
def Slot.ofBytes (bs : List Byte) : Slot := BitVec.ofNat 256 (natOfBytes bs)

/-- The decoder on bytes as they are stored: any list of bytes gives an instruction or a named reject. -/
def decodeBytes (bs : List Byte) : Except Reject Instr :=
  if bs.length ≠ 32 then .error .notOneSlot else decode (Slot.ofBytes bs)

/-- The slot with index `k` of a binary image: its bytes 32*k to 32*k+31 (R93). -/
def imageSlot (image : List Byte) (k : Nat) : Slot := Slot.ofBytes ((image.drop (32 * k)).take 32)

/-- The slots of a binary image of 32*L bytes, in the order of their indices 0 to L-1 (R93). -/
def imageSlots (image : List Byte) : List Slot := (List.range (image.length / 32)).map (imageSlot image)

/-- The instruction this decoder reads from an instruction whose bits are `w`, numbered as
spec/opcode_table.json numbers them; bits at and above `nbits` are 0. -/
def decodeTableWord (nbits w : Nat) : Option Instr :=
  (decodeBytes (bytesOfNat 32 (w % 2 ^ nbits))).toOption

/-! ### Encoding (R89) -/

/-- The width code of a width tag (R85). -/
def Width.code : Width → BitVec 2
  | .byte => 0
  | .word => 1
  | .dword => 2
  | .qword => 3

/-- A descriptor byte: three zero bits, the width code, the kind (R85). -/
def descriptorByte (wcode : BitVec 2) (kind : BitVec 3) : Byte := 0#3 ++ wcode ++ kind

/-- The descriptor of an operand (R85, R89). -/
def Operand.descriptor : Operand → Byte
  | .none => descriptorByte 0 0
  | .immediate _ => descriptorByte 0 1
  | .register w _ => descriptorByte w.code 2
  | .memory w _ => descriptorByte w.code 3
  | .memoryRegister w _ => descriptorByte w.code 4

/-- The payload of an operand (R86). -/
def Operand.payload : Operand → U64
  | .none => 0
  | .immediate v => v
  | .register _ i => i
  | .memory _ a => a
  | .memoryRegister _ i => i

/-- A slot from its opcode and three operand positions; `rsv` is 0 (R84). -/
def mkSlot (op : Byte) (a b c : Operand) : Slot :=
  c.payload ++ b.payload ++ a.payload ++ 0#32 ++ c.descriptor ++ b.descriptor ++ a.descriptor ++ op

/-- `Encode(instr)` (R89), the opcode values of R87; a position the variant does not have is None. -/
def encode : Instr → Slot
  | .call idx => mkSlot 0 idx .none .none
  | .mov src dst => mkSlot 1 src dst .none
  | .jmp src => mkSlot 2 src .none .none
  | .jz src => mkSlot 3 src .none .none
  | .jnz src => mkSlot 4 src .none .none
  | .cmp value comparator => mkSlot 5 value comparator .none
  | .add value source dst => mkSlot 6 value source dst

/-- The 32 bytes of an instruction as they are stored (R84, R89). -/
def encodeBytes (i : Instr) : List Byte := (encode i).toBytes

/-- The binary image of a stream: instruction `k` at bytes 32*k to 32*k+31 (R93). -/
def encodeImage (is : List Instr) : List Byte := is.flatMap encodeBytes

/-! ### The opcode map (R94; spec/opcode_table.json) -/

/-- The mask of a format: the number of operand positions it has decides which bits are fixed (R94). -/
def formatMask : Nat → Slot
  | 1 => 0xFFFFFFFFFFFFFFFFFFFFFFFFFFFFFFFF0000000000000000FFFFFFFFFFFFE0FF#256
  | 2 => 0xFFFFFFFFFFFFFFFF00000000000000000000000000000000FFFFFFFFFFE0E0FF#256
  | _ => 0x000000000000000000000000000000000000000000000000FFFFFFFFE0E0E0FF#256

/-- The table row of an instruction: its opcode (the match, all other bits zero) and how many operand
positions its format has (R88, R94). -/
def Instr.tableRow : Instr → Slot × Nat
  | .call _ => (0, 1)
  | .mov _ _ => (1, 2)
  | .jmp _ => (2, 1)
  | .jz _ => (3, 1)
  | .jnz _ => (4, 1)
  | .cmp _ _ => (5, 2)
  | .add _ _ _ => (6, 3)

end Sys2Proof
end

