-- ==== Sys2Proof/Machine/Error.lean ====
section
/-! DEFINITION. The error kinds a run can end with (60_exceptions.md R180). -/

namespace Sys2Proof.Machine

/-- The eight kinds of the source and `IllegalInstruction` of the binary level (R180, decision D9). An
error carries nothing but its kind (R182). -/
inductive ErrKind where
  /-- A register index of 16 or more in a Register or MemoryRegister operand, or in a host accessor. -/
  | registerIndexOutOfBounds
  /-- Lookup of an absent processor handle in the Vm: never raised by the engine (00_scope.md R4); a
  host callback may return it (46_call.md R177). -/
  | processorIndexOutOfBounds
  /-- An access to the stream while `ctx.stream_poisoned` is 1. -/
  | instructionsPoisoned
  /-- An access to the memory store while `ctx.mem_poisoned` is 1. -/
  | memoryPoisoned
  /-- A shape error: None as a source; None or Immediate as a destination. -/
  | invalidOperand
  /-- A memory read of an address with no cell. -/
  | addressNotPresent
  /-- A memory read wider than the cell. -/
  | widthMismatch
  /-- A Call whose index is neither 0 nor registered. -/
  | callIndexUnknown
  /-- The fetched slot does not decode. -/
  | illegalInstruction
  deriving DecidableEq, Repr

/-- The numeric code of a kind (R180, the spec's decision D11); 0 is success. -/
def ErrKind.code : ErrKind → Nat
  | .registerIndexOutOfBounds => 1
  | .processorIndexOutOfBounds => 2
  | .instructionsPoisoned => 3
  | .memoryPoisoned => 4
  | .invalidOperand => 5
  | .addressNotPresent => 6
  | .widthMismatch => 7
  | .callIndexUnknown => 8
  | .illegalInstruction => 9

end Sys2Proof.Machine
end

