-- ==== Sys2Proof/Config.lean ====
section
/-! DEFINITION. What the embedder fixes: the behaviour of a registered host callback (46_call.md R177, 00_scope.md
R8, decision D12 OPEN). It is a free value: an opaque constant with no body, so that no proof can see what a
callback does beyond the contract of R177. WHICH indices are registered is plain data in State. -/

namespace Sys2Proof

/-- One access of a host callback (R177), and the two ways it can poison the context (10_state.md R37). -/
inductive CallbackAct where
  /-- `RegRead(w, i)` on the calling processor (10_state.md R24, R28). -/
  | regRead (w : Width) (i : U64)
  /-- `RegWrite(w, i, v)` on the calling processor (10_state.md R25, R28). -/
  | regWrite (w : Width) (i v : U64)
  /-- `MemRead(addr, w)` on the shared store, an access in the total order (20_memory.md R52, R64). -/
  | memRead (addr : U64) (w : Width)
  /-- `MemWrite(addr, w, v)` on the shared store, an access in the total order (20_memory.md R53, R64). -/
  | memWrite (addr : U64) (w : Width) (v : U64)
  /-- The callback fails inside an access to the store and poisons it (10_state.md R37). -/
  | poisonMemory
  /-- The callback fails inside an access to the stream and poisons it (10_state.md R37). -/
  | poisonStream
  deriving DecidableEq, Repr

/-- What an accessor answers a callback. -/
inductive CallbackAnswer where
  /-- A read's value. -/
  | value (v : U64)
  /-- A write is done. -/
  | done
  /-- The accessor raised this kind and did nothing. -/
  | error (k : Machine.ErrKind)
  deriving DecidableEq, Repr

/-- The behaviour of one call of a host callback: it returns success or an error kind (R177), or makes one more access
and goes on in a way that may depend on the answer. It is configuration and not state: State holds the answers only. -/
inductive CallbackTree where
  | ret (result : Option Machine.ErrKind)
  | act (access : CallbackAct) (next : CallbackAnswer → CallbackTree)
  deriving Inhabited

/-- FREE VALUE (notes/assumptions/12.md, 13.md): what the callback registered under `n` does on the `draw`-th call of
a callback in the whole machine. Nothing constrains it. -/
opaque Config.hostCallback (n : U64) (draw : Nat) : CallbackTree

end Sys2Proof
end

