-- ==== Sys2Proof/Machine/State.lean ====
section
/-! DEFINITION. The machine's state (10_state.md), the reasons a step or a host action can stop, and the state
after reset (10_state.md R39). All plain data. -/

namespace Sys2Proof.Machine

/-- The run state of a processor (10_state.md R38). No instruction can read it. -/
inductive RunState where
  /-- Created, `start()` not in progress. -/
  | idle
  /-- Inside `start()`. -/
  | running
  /-- The last `start()` returned success. -/
  | halted
  /-- The last `start()` returned the error `kind` (60_exceptions.md R186). -/
  | faulted (kind : ErrKind)
  deriving DecidableEq, Repr

/-- How far a processor is inside an instruction, between two of its indivisible accesses (20_memory.md R63, R65;
41_engine.md R141): what the lines already run have produced and the remaining lines need. -/
inductive Phase where
  /-- Between two steps. -/
  | boundary
  /-- Fetched and decoded; no operand resolved yet. -/
  | decoded (i : Instr)
  /-- Mov has read `v`; the write to `dst` is next. -/
  | movWrite (dst : Operand) (v : U64)
  /-- Add has read `a` from source; the read of value is next. -/
  | addValue (value dst : Operand) (a : U64)
  /-- Add has written V; the write of `result` to `dst` is next. -/
  | addWrite (dst : Operand) (result : U64)
  /-- Cmp has read `a` from value; the read of comparator is next. -/
  | cmpSecond (comparator : Operand) (a : U64)
  /-- Inside the callback registered under `n`, the `draw`-th call of one, whose accesses so far were answered by `answers`,
  the oldest first (46_call.md R177). -/
  | callback (n : U64) (draw : Nat) (answers : List CallbackAnswer)
  deriving DecidableEq, Repr

/-- What is private to one processor (60_exceptions.md R196): the register bank (10_state.md R20; register 14 is FLAGS,
register 15 is IC), the run state, and its progress inside an instruction. -/
structure Proc where
  regs : Vector U64 16
  run : RunState
  phase : Phase
  deriving DecidableEq, Repr

/-- The memory store: key and cell bytes, byte 0 first (20_memory.md R50). The canonical form is `Memory.wf`. -/
abbrev Memory := List (Nat × List Byte)

/-- The shared context (10_state.md R36). -/
structure Context where
  stream : List Slot
  mem : Memory
  streamPoisoned : Bool
  memPoisoned : Bool
  deriving DecidableEq, Repr

/-- The whole machine: the processor in focus (the one whose access or step is next), the other processors of the same
context (so NPROC is one more than their number, 00_scope.md R9), the context, the registered call indices (the domain of
HOST_CALL_TABLE, R8), the dump events so far, the newest last (46_call.md R176), and the MODEL's own counter of callback
runs, which makes each one's free effect fresh. -/
structure State where
  proc : Proc
  others : List Proc
  ctx : Context
  callTable : List U64
  dumps : List (Vector U64 16)
  draws : Nat
  deriving DecidableEq, Repr

/-- No step of this machine ends in a fault of the model: every error of the engine is a state the spec describes, the run
state Faulted(kind) with everything else as it stands (60_exceptions.md R186), hence a next state. So there is no constructor. -/
inductive Fault where
  deriving DecidableEq, Repr

/-- Where the model goes no further. -/
inductive Refusal where
  /-- Raised by an arm of `exec` that has no meaning (none is left). Safe. -/
  | notModelled (mnemonic : String)
  /-- Raised by `step`, `accessStep` and the host's `start` on a Faulted processor: "a model refuses to continue a Faulted
  processor" (60_exceptions.md R188, decision D14). Safe. -/
  | runFaulted (kind : ErrKind)
  /-- Raised by a host register accessor, by the host's `start` and by a reset while the processor runs (10_state.md R28, U12;
  10_state.md R39). Safe. -/
  | processorRunning
  /-- Raised by the host's float accessor at Byte or Word width (10_state.md R30). Safe. -/
  | floatViewWidth
  /-- Raised by `load_instructions` of 2^64 or more instructions (00_scope.md R7). Safe. -/
  | streamTooLong
  /-- Raised by the load of a binary image whose length is no multiple of 32 bytes (30_encoding.md R93). Safe. -/
  | imageLength
  /-- Raised by the host's choice of a processor that does not exist. Safe. -/
  | noSuchProcessor
  deriving DecidableEq, Repr

/-- What a step, a meaning or an access answers. -/
abbrev Result := Host.Outcome State Fault Refusal

/-! ### Field updates -/

def State.setRegs (s : State) (r : Vector U64 16) : State := { s with proc := { s.proc with regs := r } }
def State.setRun (s : State) (r : RunState) : State := { s with proc := { s.proc with run := r } }
def State.setPhase (s : State) (p : Phase) : State := { s with proc := { s.proc with phase := p } }
def State.setMem (s : State) (m : Memory) : State := { s with ctx := { s.ctx with mem := m } }
def State.setStream (s : State) (l : List Slot) : State := { s with ctx := { s.ctx with stream := l } }
def State.setMemPoisoned (s : State) (b : Bool) : State := { s with ctx := { s.ctx with memPoisoned := b } }
def State.setStreamPoisoned (s : State) (b : Bool) : State := { s with ctx := { s.ctx with streamPoisoned := b } }
def State.setDumps (s : State) (l : List (Vector U64 16)) : State := { s with dumps := l }
def State.setDraws (s : State) (n : Nat) : State := { s with draws := n }

/-! ### Reset -/

/-- A newly created processor (10_state.md R39): all 16 registers 0, Idle. -/
def Proc.reset : Proc := { regs := Vector.replicate 16 0#64, run := .idle, phase := .boundary }

/-- A new context (10_state.md R39): no instruction, no memory cell, not poisoned. -/
def Context.reset : Context := { stream := [], mem := [], streamPoisoned := false, memPoisoned := false }

/-- The machine after reset: one new processor on a new context (10_state.md R39, 70_reset_and_hazards.md R221), the default
empty call table (00_scope.md R8), no dump event yet. -/
def State.reset : State :=
  { proc := Proc.reset, others := [], ctx := Context.reset, callTable := [], dumps := [], draws := 0 }

end Sys2Proof.Machine
end

