-- ==== Sys2Proof/Machine/Ops.lean ====
section
/-! DEFINITION. The named operations over registers and memory, ending a step, and taking an error (10_state.md,
20_memory.md, 41_engine.md, 60_exceptions.md). Every read and write of a register or of memory goes through this file. -/

namespace Sys2Proof.Machine

/-! ### Widths (00_scope.md R11, 30_encoding.md R82) -/

/-- A width in bytes. -/
def widthBytes : Width → Nat
  | .byte => 1
  | .word => 2
  | .dword => 4
  | .qword => 8

/-- A width in bits. -/
def widthBits (w : Width) : Nat := 8 * widthBytes w

/-- The bits a width covers in a 64-bit value: its low `widthBits w` bits. -/
def lowMask : Width → U64
  | .byte => 0xFF#64
  | .word => 0xFFFF#64
  | .dword => 0xFFFFFFFF#64
  | .qword => 0xFFFFFFFFFFFFFFFF#64

/-- `zext_64(v[8*w-1:0])`: narrowing drops the high bits, widening adds zeros (43_add.md R156). -/
def cut (w : Width) (v : U64) : U64 := v &&& lowMask w

/-- `old` with its low `w` bytes replaced by those of `v` (10_state.md R25). -/
def insertLow (w : Width) (old v : U64) : U64 := (old &&& ~~~ lowMask w) ||| (v &&& lowMask w)

/-- The low `w` bytes of `v`, byte 0 first: little-endian (20_memory.md R53, R56). -/
def bytesOfValue (w : Width) (v : U64) : List Byte := bytesOfNat (widthBytes w) v.toNat

/-- The number whose little-endian bytes these are, as a u64 (20_memory.md R52, R56). -/
def valueOfBytes (bs : List Byte) : U64 := BitVec.ofNat 64 (natOfBytes bs)

/-! ### Registers (10_state.md) -/

/-- All 64 bits of a register of the processor in focus. -/
def State.reg (s : State) (i : Fin 16) : U64 := s.proc.regs[i]

/-- `x[i] <- v`, all 64 bits. -/
def State.setReg (s : State) (i : Fin 16) (v : U64) : State := s.setRegs (s.proc.regs.set i v)

/-- IC is register 15 (R34). -/
def State.ic (s : State) : U64 := s.reg 15

/-- `IC <- v`. -/
def State.setIC (s : State) (v : U64) : State := s.setReg 15 v

/-- FLAGS is register 14 (R31). -/
def State.flags (s : State) : U64 := s.reg 14

/-- `RegRead(w, i)` (R23, R24). -/
def regRead (w : Width) (i : U64) (s : State) : Except ErrKind U64 :=
  if h : i.toNat < 16 then .ok (cut w (s.reg ⟨i.toNat, h⟩)) else .error .registerIndexOutOfBounds

/-- `RegWrite(w, i, v)` (R23, R25). -/
def regWrite (w : Width) (i v : U64) (s : State) : Except ErrKind State :=
  if h : i.toNat < 16 then
    .ok (s.setReg ⟨i.toNat, h⟩ (insertLow w (s.reg ⟨i.toNat, h⟩) v))
  else .error .registerIndexOutOfBounds

/-! ### Memory (20_memory.md) -/

/-- The cell under a key; none where the key is absent (R50, R54). -/
def Memory.cell (a : Nat) : Memory → Option (List Byte)
  | [] => none
  | (k, c) :: m => if k = a then some c else Memory.cell a m

/-- The cell under key `a` replaced or created, keys kept rising (R53). -/
def Memory.put (a : Nat) (c : List Byte) : Memory → Memory
  | [] => [(a, c)]
  | (k, d) :: m =>
    if a < k then (a, c) :: (k, d) :: m
    else if a = k then (a, c) :: m
    else (k, d) :: Memory.put a c m

/-- A cell has 1, 2, 4 or 8 bytes (R50). -/
def cellSizeOK (c : List Byte) : Bool :=
  c.length == 1 || c.length == 2 || c.length == 4 || c.length == 8

/-- The canonical form of the store: keys strictly rising and below 2^64, cells of the four sizes. An absent key is not
listed, so equal stores are equal data. -/
def Memory.wf : Memory → Bool
  | [] => true
  | (k, c) :: m => k < 2 ^ 64 && cellSizeOK c && m.all (fun e => k < e.1) && Memory.wf m

/-- `MemRead(addr, n)` (R52): poison, then presence, then width (decision D4). -/
def memRead (addr : U64) (w : Width) (s : State) : Except ErrKind U64 :=
  if s.ctx.memPoisoned then .error .memoryPoisoned
  else
    match Memory.cell addr.toNat s.ctx.mem with
    | none => .error .addressNotPresent
    | some c =>
      if c.length < widthBytes w then .error .widthMismatch
      else .ok (valueOfBytes (c.take (widthBytes w)))

/-- `MemWrite(addr, n, v)` (R53). -/
def memWrite (addr : U64) (w : Width) (v : U64) (s : State) : Except ErrKind State :=
  if s.ctx.memPoisoned then .error .memoryPoisoned
  else .ok (s.setMem (Memory.put addr.toNat (bytesOfValue w v) s.ctx.mem))

/-! ### Ending a step -/

/-- Taking an error, the one "trap entry" of the machine (60_exceptions.md R186): the run state becomes Faulted(kind); nothing
is saved, IC is not moved (41_engine.md R138), registers and context stay as they are, and control goes nowhere. -/
def abort (k : ErrKind) (s : State) : Result := .next (s.setRun (.faulted k))

/-- The end of a step that is not a taken transfer: IC increments by 1 modulo 2^64, from the value x[15] holds after the
instruction (41_engine.md R135, R136, R137). -/
def advance (s : State) : Result := .next (s.setIC (s.ic + 1))

/-- The end of a taken transfer: IC becomes the target and is not incremented (41_engine.md R134). -/
def jumpTo (target : U64) (s : State) : Result := .next (s.setIC target)

/-- The run ends successfully; no register changes (41_engine.md R132). -/
def halt (s : State) : Result := .next (s.setRun .halted)

end Sys2Proof.Machine
end

