-- ==== Sys2Proof/Machine/Flags.lean ====
section
/-! DEFINITION. The flag logic (10_state.md R31 to R33) and the arithmetic it reports (43_add.md R155, 44_cmp.md R160). -/

namespace Sys2Proof.Machine

/-- Bit of Z in register 14 (10_state.md R31, decision D2). -/
def zBit : Nat := 0
/-- Bit of G in register 14 (10_state.md R31, decision D2). -/
def gBit : Nat := 1
/-- Bit of V in register 14 (10_state.md R31, decision D2). -/
def vBit : Nat := 2

/-- `v` with bit `k` set to `b` and every other bit as it was. -/
def setBit (v : U64) (k : Nat) (b : Bool) : U64 :=
  if b then v ||| (1#64 <<< k) else v &&& ~~~ (1#64 <<< k)

/-- An implicit flag write changes exactly the named bit of x[14] (10_state.md R33). -/
def State.setFlag (s : State) (k : Nat) (b : Bool) : State := s.setReg 14 (setBit s.flags k b)

def State.flagZ (s : State) : Bool := s.flags.getLsbD zBit
def State.flagG (s : State) : Bool := s.flags.getLsbD gBit
def State.flagV (s : State) : Bool := s.flags.getLsbD vBit

def State.setZ (s : State) (b : Bool) : State := s.setFlag zBit b
def State.setG (s : State) (b : Bool) : State := s.setFlag gBit b
def State.setV (s : State) (b : Bool) : State := s.setFlag vBit b

/-- The exact sum of the low `w` bytes of both operands, one bit wider than the destination (43_add.md R155, decision D5). -/
def exactSum (w : Width) (a b : U64) : Nat := (cut w a).toNat + (cut w b).toNat

/-- The N-bit result of an Add, zero-extended (43_add.md R155). -/
def addResult (w : Width) (a b : U64) : U64 := cut w (BitVec.ofNat 64 (exactSum w a b))

/-- The carry out of an Add at width `w` (43_add.md R155): an unsigned carry, not a signed overflow (R156). -/
def addCarry (w : Width) (a b : U64) : Bool := decide (2 ^ widthBits w ≤ exactSum w a b)

/-- Z of a Cmp: the 64-bit wrapping difference is zero (44_cmp.md R160). -/
def cmpZero (a b : U64) : Bool := a - b == 0#64

/-- G of a Cmp: greater, unsigned (44_cmp.md R160). -/
def cmpGreater (a b : U64) : Bool := decide (b.toNat < a.toNat)

end Sys2Proof.Machine
end

