-- ==== Sys2Proof/Machine/Operands.lean ====
section
/-! DEFINITION. The operand resolver and the address translator (40_operands.md), and the shape check (R121). -/

namespace Sys2Proof.Machine

/-- A source position holds something that can be read (R121). -/
def readable : Operand → Bool
  | .none => false
  | .immediate _ | .register _ _ | .memory _ _ | .memoryRegister _ _ => true

/-- A destination position holds a place that can be written (R121). -/
def writable : Operand → Bool
  | .none | .immediate _ => false
  | .register _ _ | .memory _ _ | .memoryRegister _ _ => true

/-- Address formation, step (1) of the address translator (20_memory.md R62; R116, R120): the address field of a Memory
operand, all 64 bits of the named register for a MemoryRegister operand, whatever its width. The other kinds have no address
and do not come here. -/
def operandAddress (op : Operand) (s : State) : Except ErrKind U64 :=
  match op with
  | .memory _ a => .ok a
  | .memoryRegister _ i => regRead .qword i s
  | .none | .immediate _ | .register _ _ => .error .invalidOperand

/-- `ReadOperand(op)` (R110 to R116). It changes no state. -/
def readOperand (op : Operand) (s : State) : Except ErrKind U64 :=
  match op with
  | .none => .error .invalidOperand
  | .immediate v => .ok v
  | .register w i => regRead w i s
  | .memory w a =>
    match operandAddress (.memory w a) s with
    | .error k => .error k
    | .ok addr => memRead addr w s
  | .memoryRegister w i =>
    match operandAddress (.memoryRegister w i) s with
    | .error k => .error k
    | .ok addr => memRead addr w s

/-- `WriteOperand(op, v)` (R117 to R120). -/
def writeOperand (op : Operand) (v : U64) (s : State) : Except ErrKind State :=
  match op with
  | .none => .error .invalidOperand
  | .immediate _ => .error .invalidOperand
  | .register w i => regWrite w i v s
  | .memory w a =>
    match operandAddress (.memory w a) s with
    | .error k => .error k
    | .ok addr => memWrite addr w v s
  | .memoryRegister w i =>
    match operandAddress (.memoryRegister w i) s with
    | .error k => .error k
    | .ok addr => memWrite addr w v s

/-- `Width(op)` (R122); a kind without a width never gets here past the shape check, and is given QWord. -/
def operandWidth : Operand → Width
  | .register w _ | .memory w _ | .memoryRegister w _ => w
  | .none | .immediate _ => .qword

/-- The shape check, the first act of every instruction: it looks at kinds only (R121). -/
def shaped (sources dests : List Operand) (s : State) (body : Result) : Result :=
  if sources.all readable && dests.all writable then body else abort .invalidOperand s

/-- One line `v = ReadOperand(op)` of an instruction: the rest runs with the value, or the error is raised. -/
def resolve (op : Operand) (s : State) (rest : U64 → Result) : Result :=
  match readOperand op s with
  | .error k => abort k s
  | .ok v => rest v

/-- One last line `WriteOperand(op, v)` of an instruction that is not a transfer. -/
def store (op : Operand) (v : U64) (s : State) : Result :=
  match writeOperand op v s with
  | .error k => abort k s
  | .ok t => advance t

end Sys2Proof.Machine
end

