-- ==== Sys2Proof/Machine/Arith.lean ====
section
/-! DEFINITION. Add (43_add.md R155) and Cmp (44_cmp.md R160). -/

namespace Sys2Proof.Machine

/-- The state after Add's flag line: V written, no other bit of x[14] changed (R155). -/
def addFlag (dst : Operand) (a b : U64) (s : State) : State := s.setV (addCarry (operandWidth dst) a b)

/-- `Add(value, source, dst)` (R155): source is resolved first, then value; V is written, then dst; IC + 1. -/
def execAdd (value source dst : Operand) (s : State) : Result :=
  shaped [value, source] [dst] s
    (resolve source s fun a => resolve value s fun b =>
      store dst (addResult (operandWidth dst) a b) (addFlag dst a b s))

/-- The last lines of Cmp: Z, then G, V and bits 63:3 untouched; IC + 1 (R160). -/
def cmpFinish (a b : U64) (s : State) : Result :=
  advance ((s.setZ (cmpZero a b)).setG (cmpGreater a b))

/-- `Cmp(value, comparator)` (R160): value is resolved first. -/
def execCmp (value comparator : Operand) (s : State) : Result :=
  shaped [value, comparator] [] s
    (resolve value s fun a => resolve comparator s fun b => cmpFinish a b s)

end Sys2Proof.Machine
end

