-- ==== Sys2Proof/Machine/Call.lean ====
section
/-! DEFINITION. Call, the host call (46_call.md R175 to R178). -/

namespace Sys2Proof.Machine

/-- The diagnostic dump (R176): a host-side event with the 16 register values at that moment; no architectural change
(decision D22). -/
def dump (s : State) : State := s.setDumps (s.dumps ++ [s.proc.regs])

/-- An accessor's read as a callback sees it: it changes no state. -/
def answerRead (r : Except ErrKind U64) (s : State) : CallbackAnswer × State :=
  match r with
  | .ok v => (.value v, s)
  | .error k => (.error k, s)

/-- An accessor's write as a callback sees it: one that raises changes nothing. -/
def answerWrite (r : Except ErrKind State) (s : State) : CallbackAnswer × State :=
  match r with
  | .ok t => (.done, t)
  | .error k => (.error k, s)

/-- One access of a host callback: the answer it gets and the state after (R177). What it makes of an error is its own affair. -/
def callbackAct (a : CallbackAct) (s : State) : CallbackAnswer × State :=
  match a with
  | .regRead w i => answerRead (regRead w i s) s
  | .regWrite w i v => answerWrite (regWrite w i v s) s
  | .memRead addr w => answerRead (memRead addr w s) s
  | .memWrite addr w v => answerWrite (memWrite addr w v s) s
  | .poisonMemory => (.done, s.setMemPoisoned true)
  | .poisonStream => (.done, s.setStreamPoisoned true)

/-- The return of a host callback (R175, R177): success goes on to the next instruction, from x[15] as the callback left it;
an error aborts the run like any other. -/
def callbackReturn (result : Option ErrKind) (s : State) : Result :=
  match result with
  | none => advance s
  | some k => abort k s

/-- All accesses of a host callback one after another: what it returns, and the state after the last. -/
def callbackRun : CallbackTree → State → Option ErrKind × State
  | .ret result, s => (result, s)
  | .act a next, s => callbackRun (next (callbackAct a s).1) (callbackAct a s).2

/-- All accesses of a host callback, then its return. -/
def callbackFinish (c : CallbackTree) (s : State) : Result := callbackReturn (callbackRun c s).1 (callbackRun c s).2

/-- How a callback goes on when its next access is answered so. -/
def callbackNext : CallbackTree → CallbackAnswer → CallbackTree
  | .ret result, _ => .ret result
  | .act _ next, answer => next answer

/-- What is left of a callback whose accesses so far were answered so. -/
def callbackAfter (c : CallbackTree) (answers : List CallbackAnswer) : CallbackTree := answers.foldl callbackNext c

/-- What the callback registered under `n` does, called now (R177): a free value (Config). -/
def callbackOf (n : U64) (s : State) : CallbackTree := Config.hostCallback n s.draws

/-- One more callback has been run. -/
def countDraw (s : State) : State := s.setDraws (s.draws + 1)

/-- `Call(idx)` (R175): index 0 is the dump whatever the table holds (R176); a registered index runs its callback (R177); any
other raises CallIndexUnknown (R178). -/
def execCall (idx : Operand) (s : State) : Result :=
  shaped [idx] [] s (resolve idx s fun n =>
    if n = 0#64 then advance (dump s)
    else if n ∈ s.callTable then
      callbackFinish (callbackOf n s) (countDraw s)
    else abort .callIndexUnknown s)

end Sys2Proof.Machine
end

