-- ==== Sys2Proof/Machine/Fetch.lean ====
section
/-! DEFINITION. The fetch: one indivisible read of the shared stream (41_engine.md R131, 20_memory.md R68). -/

namespace Sys2Proof.Machine

/-- What a fetch finds. -/
inductive Fetched where
  /-- `ctx.stream_poisoned` is 1. -/
  | poisoned
  /-- IC >= L (41_engine.md R132). -/
  | outOfRange
  /-- The slot does not decode (30_encoding.md R91). -/
  | invalid (why : Reject)
  /-- The instruction at IC. -/
  | instr (i : Instr)
  deriving DecidableEq, Repr

/-- Poison check, range check of IC against the current L, read of `stream[IC]`, decode, in that order (R68, R131). -/
def fetch (s : State) : Fetched :=
  if s.ctx.streamPoisoned then .poisoned
  else
    match s.ctx.stream[s.ic.toNat]? with
    | none => .outOfRange
    | some W =>
      match decode W with
      | .error r => .invalid r
      | .ok i => .instr i

/-- `start()` sets the run state to Running and nothing else (41_engine.md R130, decision D15). -/
def begin (s : State) : State := s.setRun .running

/-- What the processor in focus does when its turn comes: a Running one does `go`; an Idle or Halted one does nothing until the host
calls its `start()` (41_engine.md R130, 60_exceptions.md R197; that doing nothing is a next state is log 2); a Faulted one is
refused (60_exceptions.md R188, decision D14). -/
def whenRunning (s : State) (go : Result) : Result :=
  match s.proc.run with
  | .running => go
  | .idle | .halted => .next s
  | .faulted k => .refused (.runFaulted k)

/-- The top of a step: the fetch, and what each finding leads to. `run` is what is done with the instruction (R131, R132,
30_encoding.md R91). -/
def fetchThen (s : State) (run : Instr → Result) : Result :=
  match fetch s with
  | .poisoned => abort .instructionsPoisoned s
  | .outOfRange => halt s
  | .invalid _ => abort .illegalInstruction s
  | .instr i => run i

/-- The stream with slot `W` at index `k`, every other index below the old length unchanged; blank slots stand between. -/
def placeSlot (l : List Slot) (k : Nat) (W : Slot) : List Slot :=
  (l ++ List.replicate (k + 1 - l.length) 0#256).set k W

end Sys2Proof.Machine
end

