-- ==== Sys2Proof/Machine/Jump.lean ====
section
/-! DEFINITION. Jmp, Jz, Jnz (45_jumps.md R165 to R168). -/

namespace Sys2Proof.Machine

/-- `Jmp(src)` (R165). -/
def execJmp (src : Operand) (s : State) : Result :=
  shaped [src] [] s (resolve src s fun target => jumpTo target s)

/-- `Jz(src)` (R166): the operand is resolved only when Z is 1, before Z is cleared (R168, decision D7). -/
def execJz (src : Operand) (s : State) : Result :=
  shaped [src] [] s
    (if s.flagZ then resolve src s fun target => jumpTo target (s.setZ false) else advance s)

/-- `Jnz(src)` (R167): the operand is resolved only when Z is 0; flags untouched on both paths. -/
def execJnz (src : Operand) (s : State) : Result :=
  shaped [src] [] s (if s.flagZ then advance s else resolve src s fun target => jumpTo target s)

end Sys2Proof.Machine
end

