-- ==== Sys2Proof/Machine/Access.lean ====
section
/-! DEFINITION. A step taken one indivisible access at a time (20_memory.md R63 to R65, 41_engine.md R141), so that accesses of
other processors and of the host can come between. `Phase` holds what the rest of the instruction needs. The lines of each
instruction are those of its meaning; only where the step pauses is added. -/

namespace Sys2Proof.Machine

/-- From the decoded instruction through the shape check and its first operand. -/
def accessFirst (i : Instr) (s : State) : Result :=
  match i with
  | .call idx =>
    shaped [idx] [] s (resolve idx s fun n =>
      if n = 0#64 then advance (dump s)
      else if n ∈ s.callTable then
        .next ((countDraw s).setPhase (.callback n s.draws []))
      else abort .callIndexUnknown s)
  | .mov src dst => shaped [src] [dst] s (resolve src s fun v => .next (s.setPhase (.movWrite dst v)))
  | .jmp src => execJmp src s
  | .jz src => execJz src s
  | .jnz src => execJnz src s
  | .cmp value comparator =>
    shaped [value, comparator] [] s (resolve value s fun a => .next (s.setPhase (.cmpSecond comparator a)))
  | .add value source dst =>
    shaped [value, source] [dst] s (resolve source s fun a => .next (s.setPhase (.addValue value dst a)))

/-- The next access of a processor whose progress is `p`; `s` stands between two instructions for the lines that end one. -/
def accessAt (p : Phase) (s : State) : Result :=
  match p with
  | .boundary => fetchThen s fun i => .next (s.setPhase (.decoded i))
  | .decoded i => accessFirst i s
  | .movWrite dst v => store dst v s
  | .addValue value dst a =>
    resolve value s fun b =>
      .next ((addFlag dst a b s).setPhase (.addWrite dst (addResult (operandWidth dst) a b)))
  | .addWrite dst result => store dst result s
  | .cmpSecond comparator a => resolve comparator s fun b => cmpFinish a b s
  | .callback n draw answers =>
    match callbackAfter (Config.hostCallback n draw) answers with
    | .ret result => callbackReturn result s
    | .act a _ => .next ((callbackAct a s).2.setPhase (.callback n draw (answers ++ [(callbackAct a s).1])))

/-- One indivisible access of the processor in focus, with the private work around it; none where it is not running
(60_exceptions.md R197). -/
def accessStep (s : State) : Result := whenRunning s (accessAt s.proc.phase (s.setPhase .boundary))

/-- Accesses of the processor in focus until its step is over, at most `n` of them. -/
def accessRun : Nat → State → Result
  | 0, s => .next s
  | n + 1, s =>
    match s.proc.phase with
    | .boundary => .next s
    | _ =>
      match accessStep s with
      | .next t => accessRun n t
      | .fault f => .fault f
      | .refused r => .refused r

end Sys2Proof.Machine
end

