-- ==== Sys2Proof/Machine/Move.lean ====
section
/-! DEFINITION. Mov (42_mov.md R150). -/

namespace Sys2Proof.Machine

/-- `Mov(src, dst)` (R150): read src, write dst; IC + 1. -/
def execMov (src dst : Operand) (s : State) : Result :=
  shaped [src] [dst] s (resolve src s fun v => store dst v s)

end Sys2Proof.Machine
end

