-- ==== Sys2Proof/Machine/Dispatch.lean ====
section
/-! DEFINITION. The exhaustive dispatch on the variant (41_engine.md R131): one arm per constructor of Instr. -/

namespace Sys2Proof.Machine

def exec (i : Instr) (s : State) : Host.Outcome State Fault Refusal :=
  match i with
  | .call idx => Sys2Proof.Machine.execCall idx s
  | .mov src dst => Sys2Proof.Machine.execMov src dst s
  | .jmp src => Sys2Proof.Machine.execJmp src s
  | .jz src => Sys2Proof.Machine.execJz src s
  | .jnz src => Sys2Proof.Machine.execJnz src s
  | .cmp value comparator => Sys2Proof.Machine.execCmp value comparator s
  | .add value source dst => Sys2Proof.Machine.execAdd value source dst s

end Sys2Proof.Machine
end

