-- ==== Sys2Proof/Machine/Step.lean ====
section
/-! DEFINITION. One step of the processor in focus (41_engine.md R131), and where a test places an instruction. -/

namespace Sys2Proof.Machine

/-- One whole step of a processor that is running (R131); one that is not makes none (60_exceptions.md R197). A processor found inside
an instruction goes on by one access. -/
def step (s : State) : Host.Outcome State Fault Refusal :=
  whenRunning s
    (match s.proc.phase with
    | .boundary => fetchThen s fun i => exec i s
    | _ => accessStep s)

/-- `s` with the instruction whose bits are `w` (those at and above `nbits` zero) in the stream at the index IC holds, the stream not
poisoned and the processor running, between two instructions: the load of a program by the host (20_memory.md R67) and its `start()`
(41_engine.md R130), as log 25 says. -/
def State.withFetchWord (s : State) (nbits w : Nat) : State :=
  { s with
    proc := { s.proc with run := .running, phase := .boundary }
    ctx := { s.ctx with
      stream := placeSlot s.ctx.stream s.ic.toNat (BitVec.ofNat 256 (w % 2 ^ nbits))
      streamPoisoned := false } }

end Sys2Proof.Machine
end

