-- ==== Sys2Proof/Machine/Port.lean ====
section
/-! DEFINITION. What the host can do to the machine from outside: `start()` (41_engine.md R130), `load_instructions`
(20_memory.md R67), the register and memory accessors (10_state.md R28 to R30, 20_memory.md R70), creation and reset
(10_state.md R39, 70_reset_and_hazards.md R220, R222), the call table (00_scope.md R8), poison (10_state.md R37), and which
processor's access is next (60_exceptions.md R197, R198). -/

namespace Sys2Proof.Machine

/-- What a host operation answers: a value, the error kind an accessor returns, or a refusal of the model. -/
inductive Answer (α : Type) where
  | ok (a : α)
  | error (k : ErrKind)
  | refused (r : Refusal)
  deriving DecidableEq, Repr

/-- An accessor's result as an answer. -/
def Answer.ofExcept {α : Type} : Except ErrKind α → Answer α
  | .ok a => .ok a
  | .error k => .error k

/-- A register accessor may be used on a processor that is not running (10_state.md R28, U12). -/
def whenStopped {α : Type} (s : State) (a : Answer α) : Answer α :=
  match s.proc.run with
  | .running => .refused .processorRunning
  | .idle | .halted | .faulted _ => a

/-! ### Register accessors (10_state.md R28 to R30) -/

/-- Unsigned get: exactly `RegRead` (R28). -/
def hostRegGet (w : Width) (i : U64) (s : State) : Answer U64 := whenStopped s (.ofExcept (regRead w i s))

/-- Unsigned set: exactly `RegWrite` (R28). -/
def hostRegSet (w : Width) (i v : U64) (s : State) : Answer State := whenStopped s (.ofExcept (regWrite w i v s))

/-- The signed integer of the low `w` bytes, two's complement (R29, decision D19). -/
def signedOf (w : Width) (v : U64) : Int :=
  if v.getLsbD (widthBits w - 1) then ((cut w v).toNat : Int) - 2 ^ widthBits w else (cut w v).toNat

/-- `RegReadSigned(w, i)` (R29). -/
def hostRegGetSigned (w : Width) (i : U64) (s : State) : Answer Int :=
  match hostRegGet w i s with
  | .ok v => .ok (signedOf w v)
  | .error k => .error k
  | .refused r => .refused r

/-- `RegWriteSigned(w, i, x)`: the two's complement representation in the low `w` bytes, the other bytes kept (R29). -/
def hostRegSetSigned (w : Width) (i : U64) (x : Int) (s : State) : Answer State :=
  hostRegSet w i (BitVec.ofInt 64 x) s

/-- An IEEE 754 bit pattern: binary32 or binary64 (R30, decision D19). -/
inductive FloatBits where
  | binary32 (bits : BitVec 32)
  | binary64 (bits : BitVec 64)
  deriving DecidableEq, Repr

/-- Float get (R30): the bit pattern unchanged; refused at Byte and Word. -/
def hostRegGetFloat (w : Width) (i : U64) (s : State) : Answer FloatBits :=
  match w with
  | .byte | .word => .refused .floatViewWidth
  | .dword =>
    match hostRegGet .dword i s with
    | .ok v => .ok (.binary32 (v.setWidth 32))
    | .error k => .error k
    | .refused r => .refused r
  | .qword =>
    match hostRegGet .qword i s with
    | .ok v => .ok (.binary64 v)
    | .error k => .error k
    | .refused r => .refused r

/-- Float set (R30): the bit pattern unchanged, the other bytes kept on a DWord set. There is no set at Byte or Word. -/
def hostRegSetFloat (i : U64) (x : FloatBits) (s : State) : Answer State :=
  match x with
  | .binary32 b => hostRegSet .dword i (b.setWidth 64) s
  | .binary64 b => hostRegSet .qword i b s

/-! ### Memory accessors (20_memory.md R70) -/

/-- `MemRead(addr, n)` issued by the host. -/
def hostMemGet (addr : U64) (w : Width) (s : State) : Answer U64 := .ofExcept (memRead addr w s)

/-- `MemWrite(addr, n, v)` issued by the host. -/
def hostMemSet (addr : U64) (w : Width) (v : U64) (s : State) : Answer State := .ofExcept (memWrite addr w v s)

/-! ### Running and loading -/

/-- `start()` enters the run; the steps follow (41_engine.md R130). It changes no register and nothing of the context (decision
D15). A Faulted processor is refused (60_exceptions.md R188). -/
def hostStart (s : State) : Answer State :=
  match s.proc.run with
  | .idle | .halted => .ok (begin s)
  | .running => .refused .processorRunning
  | .faulted k => .refused (.runFaulted k)

/-- What `start()` returns when the run has ended: success, or the error kind (41_engine.md R133); none while it has not. -/
def startResult (s : State) : Option (Except ErrKind Unit) :=
  match s.proc.run with
  | .halted => some (.ok ())
  | .faulted k => some (.error k)
  | .idle | .running => none

/-- The same as the status code of 60_exceptions.md R180 (decision D11). -/
def startStatus (s : State) : Option Nat :=
  match startResult s with
  | some (.ok ()) => some 0
  | some (.error k) => some k.code
  | none => none

/-- The stream replaced by these slots, Invalid ones kept (20_memory.md R67, 30_encoding.md R93). It changes no register, no cell and no
run state (decision D15). -/
def hostLoadSlots (slots : List Slot) (s : State) : Answer State :=
  if s.ctx.streamPoisoned then .error .instructionsPoisoned
  else if 2 ^ 64 ≤ slots.length then .refused .streamTooLong
  else .ok (s.setStream slots)

/-- `load_instructions(stream)` (20_memory.md R67), on the abstract instructions (30_encoding.md R83). -/
def hostLoad (is : List Instr) (s : State) : Answer State := hostLoadSlots (is.map encode) s

/-- Loading a binary image of 32*L bytes (30_encoding.md R93); a list of bytes of any other length is no image (log 10). -/
def hostLoadImage (image : List Byte) (s : State) : Answer State :=
  if image.length % 32 ≠ 0 then .refused .imageLength else hostLoadSlots (imageSlots image) s

/-! ### The host call table -/

/-- A callback is registered under `n` (00_scope.md R8); index 0 stays the dump (46_call.md R176). How and when callbacks are
registered the spec leaves open (91_not_in_source.md N25); that the host may do it between any two accesses, while processors
run too, is the model's DESIGN CHOICE (log 28). -/
def hostRegister (n : U64) (s : State) : State := { s with callTable := n :: s.callTable }

/-- The callback registered under `n` is taken out; the same DESIGN CHOICE (log 28). -/
def hostUnregister (n : U64) (s : State) : State := { s with callTable := s.callTable.filter (· != n) }

/-! ### Processors -/

/-- A new processor bound to the existing context (10_state.md R39, 60_exceptions.md R195). -/
def hostCreate (s : State) : State := { s with others := s.others ++ [Proc.reset] }

/-- The processor that stands at place `k` of the others comes into focus; the one in focus takes its place. Nothing else
changes: which processor moves next is the host's choice (60_exceptions.md R197, R198). -/
def hostFocus (k : Nat) (s : State) : Answer State :=
  match s.others[k]? with
  | none => .refused .noSuchProcessor
  | some p => .ok { s with proc := p, others := s.others.set k s.proc }

/-- A reset of the processor in focus (70_reset_and_hazards.md R220): registers and run state only. There is no reset during a
run (10_state.md R39). -/
def hostResetProcessor (s : State) : Answer State := whenStopped s (.ok { s with proc := Proc.reset })

/-- No processor of the context is running. -/
def allStopped (s : State) : Bool := (s.proc :: s.others).all fun p => p.run != .running

/-- A reset of the context (70_reset_and_hazards.md R220): stream and store empty, poison flags 0, no processor touched. -/
def hostResetContext (s : State) : Answer State :=
  if allStopped s then .ok { s with ctx := Context.reset } else .refused .processorRunning

/-! ### All of it as one action -/

/-- What the host does between two accesses of the machine. -/
inductive HostAction where
  /-- `start()`. -/
  | start
  /-- `load_instructions`. -/
  | load (is : List Instr)
  /-- `load_instructions` of a binary image. -/
  | loadImage (image : List Byte)
  /-- Register set, unsigned. -/
  | regSet (w : Width) (i v : U64)
  /-- Register set, signed. -/
  | regSetSigned (w : Width) (i : U64) (x : Int)
  /-- Register set, float. -/
  | regSetFloat (i : U64) (x : FloatBits)
  /-- Memory set. -/
  | memSet (addr : U64) (w : Width) (v : U64)
  /-- A new processor. -/
  | create
  /-- Another processor's access is next. -/
  | focus (k : Nat)
  /-- Reset of the processor in focus. -/
  | resetProcessor
  /-- Reset of the context. -/
  | resetContext
  /-- A callback is registered under `n` (00_scope.md R8). DESIGN CHOICE of the model (log 28): at any time. -/
  | register (n : U64)
  /-- The callback registered under `n` is taken out. DESIGN CHOICE of the model (log 28): at any time. -/
  | unregister (n : U64)
  /-- Host code fails inside an access to the stream (10_state.md R37). -/
  | poisonStream
  /-- Host code fails inside an access to the store (10_state.md R37). -/
  | poisonMemory
  deriving DecidableEq, Repr

/-- The machine after a host action. -/
def hostAct (a : HostAction) (s : State) : Answer State :=
  match a with
  | .start => hostStart s
  | .load is => hostLoad is s
  | .loadImage image => hostLoadImage image s
  | .regSet w i v => hostRegSet w i v s
  | .regSetSigned w i x => hostRegSetSigned w i x s
  | .regSetFloat i x => hostRegSetFloat i x s
  | .memSet addr w v => hostMemSet addr w v s
  | .create => .ok (hostCreate s)
  | .focus k => hostFocus k s
  | .resetProcessor => hostResetProcessor s
  | .resetContext => hostResetContext s
  | .register n => .ok (hostRegister n s)
  | .unregister n => .ok (hostUnregister n s)
  | .poisonStream => .ok (s.setStreamPoisoned true)
  | .poisonMemory => .ok (s.setMemPoisoned true)

end Sys2Proof.Machine
end

