-- ==== Sys2Proof/Safety.lean ====
section
/-! DEFINITION. What counts as a well-kept machine (the invariant every step, access and host action keeps), and the vocabulary
of the claims: which operand an instruction stores to, when a jump is taken, which error kinds an instruction may raise. -/

namespace Sys2Proof.Machine

/-- What is left of an instruction is well shaped, and the sum an Add is about to write fits its destination. -/
def phaseOK : Phase → Bool
  | .boundary | .decoded _ | .callback _ _ _ => true
  | .movWrite dst _ => writable dst
  | .addValue value dst _ => readable value && writable dst
  | .addWrite dst result => writable dst && cut (operandWidth dst) result == result
  | .cmpSecond comparator _ => readable comparator

/-- A processor is inside an instruction only while it is running (41_engine.md R130, R131). -/
def procOK (p : Proc) : Bool := phaseOK p.phase && (p.phase == .boundary || p.run == .running)

/-- The invariant: the store is canonical (20_memory.md R50), the stream is shorter than 2^64 (00_scope.md R7), and every processor is
well kept. -/
abbrev State.Inv (s : State) : Prop :=
  Memory.wf s.ctx.mem = true ∧ s.ctx.stream.length < 2 ^ 64 ∧ procOK s.proc = true ∧ s.others.all procOK = true

/-- The destination operand of an instruction that has one (30_encoding.md R80). -/
def destOf : Instr → Option Operand
  | .mov _ dst => some dst
  | .add _ _ dst => some dst
  | .call _ | .jmp _ | .jz _ | .jnz _ | .cmp _ _ => none

/-- The operand names register `j`, at any width. -/
def namesRegister (op : Operand) (j : Nat) : Bool :=
  match op with
  | .register _ i => i.toNat == j
  | .none | .immediate _ | .memory _ _ | .memoryRegister _ _ => false

/-- The instruction writes register `j` through its destination operand (41_engine.md R137, 10_state.md R33). -/
def writesRegister (i : Instr) (j : Nat) : Bool :=
  match destOf i with
  | some dst => namesRegister dst j
  | none => false

/-- The operand is a place in the memory store. -/
def inMemory : Operand → Bool
  | .memory _ _ | .memoryRegister _ _ => true
  | .none | .immediate _ | .register _ _ => false

/-- The instruction has a destination in the memory store (20_memory.md R58). -/
def storesToMemory (i : Instr) : Bool :=
  match destOf i with
  | some dst => inMemory dst
  | none => false

/-- The instruction is a Call that runs a registered host callback in `s` (46_call.md R177). -/
def runsCallback (i : Instr) (s : State) : Bool :=
  match i with
  | .call idx =>
    match readOperand idx s with
    | .ok n => n != 0#64 && s.callTable.contains n
    | .error _ => false
  | .mov _ _ | .jmp _ | .jz _ | .jnz _ | .cmp _ _ | .add _ _ _ => false

/-- The operand of a control transfer that is taken in `s` (00_scope.md R12): Jmp always, Jz when Z is 1, Jnz when Z is 0. -/
def takenTarget (i : Instr) (s : State) : Option Operand :=
  match i with
  | .jmp src => some src
  | .jz src => if s.flagZ then some src else none
  | .jnz src => if s.flagZ then none else some src
  | .call _ | .mov _ _ | .cmp _ _ | .add _ _ _ => none

/-- The processor's last run ended in an error. -/
def isFaulted (s : State) : Bool :=
  match s.proc.run with
  | .faulted _ => true
  | .idle | .running | .halted => false

/-- Which kinds an instruction may raise (60_exceptions.md R181), a row being the instruction and, for Jz and Jnz, whether the jump is
taken; the kinds a callback returns apart. -/
def mayRaise (i : Instr) (z : Bool) (k : ErrKind) : Bool :=
  match k with
  | .invalidOperand => true
  | .callIndexUnknown =>
    match i with
    | .call _ => true
    | .mov _ _ | .jmp _ | .jz _ | .jnz _ | .cmp _ _ | .add _ _ _ => false
  | .registerIndexOutOfBounds | .memoryPoisoned | .addressNotPresent | .widthMismatch =>
    match i with
    | .jz _ => z
    | .jnz _ => !z
    | .call _ | .mov _ _ | .jmp _ | .cmp _ _ | .add _ _ _ => true
  | .processorIndexOutOfBounds | .instructionsPoisoned | .illegalInstruction => false

end Sys2Proof.Machine
end

