-- ==== Sys2Proof/Certificates/Slice0/Obligations.lean ====
section
/-! DEFINITION. The statements for the provers. Bits are numbered from 0, FLAGS is `reg 14`, IC is `reg 15`; `8 * widthBytes w` is a width in
bits. Where a statement rests on a decision of the spec (92_eei_decisions.md), its docstring names it and the log entry. -/

open Sys2Proof Sys2Proof.Machine

/-! ### Encoding (30_encoding.md section 2, decision D1, log 10) -/

/-- The spec's own encoding example (R89) and one slot of 95_test_vectors.md per remaining instruction: S6, A9, C5, J2, J12, J16, K5. -/
def Obligations.DecodesWordsOfTheSpec : Prop :=
  decode 0x0000000000000000_0000000000000001_000000003B9ACA00_00000000_001A0101#256 =
      .ok (.mov (.immediate 1000000000) (.register .qword 1)) ∧
  decode 0x0000000000000000_0000000000000001_0000000000000001_00000000_1A020106#256 =
      .ok (.add (.immediate 1) (.register .byte 1) (.register .qword 0)) ∧
  decode 0x0000000000000000_0000000000000003_0000000000000003_00000000_001A0205#256 =
      .ok (.cmp (.register .byte 3) (.register .qword 3)) ∧
  decode 0x0000000000000000_0000000000000000_0000000000000002_00000000_00000202#256 = .ok (.jmp (.register .byte 2)) ∧
  decode 0x0000000000000000_0000000000000000_000000000000000E_00000000_00001A03#256 = .ok (.jz (.register .qword 14)) ∧
  decode 0x0000000000000000_0000000000000000_0000000000000001_00000000_00000C04#256 = .ok (.jnz (.memoryRegister .word 1)) ∧
  decode 0x0000000000000000_0000000000000000_0000000000000070_00000000_00001B00#256 = .ok (.call (.memory .qword 0x70))

/-- Every instruction, with every operand at every value, is read back from its slot and from its 32 bytes (R90; decision D1, log 10). -/
def Obligations.DecodeOfEncode : Prop :=
  ∀ i : Instr, decode (encode i) = .ok i ∧ (encodeBytes i).length = 32 ∧ decodeBytes (encodeBytes i) = .ok i

/-- A slot that decodes is the one encoding of its instruction: no slot is read with a bit dropped (R90; decision D1, log 10). -/
def Obligations.EncodeOfDecode : Prop :=
  ∀ (W : Slot) (i : Instr), decode W = .ok i → encode i = W

/-- Decode answers Invalid exactly when one of the six conditions of R90 holds (decision D1, log 10). -/
def Obligations.DecodeRejectsExactlyTheInvalid : Prop :=
  ∀ W : Slot, (∃ r, decode W = .error r) ↔
    (6 < W.opcode.toNat ∨ W.rsv ≠ 0#32 ∨
      (∃ d ∈ [W.d0, W.d1, W.d2], d.extractLsb' 5 3 ≠ 0#3 ∨ 4 < (d.extractLsb' 0 3).toNat) ∨
      (∃ d ∈ [W.d0, W.d1, W.d2], (d.extractLsb' 0 3).toNat ≤ 1 ∧ d.extractLsb' 3 2 ≠ 0#2) ∨
      (∃ q ∈ [(W.d0, W.p0), (W.d1, W.p1), (W.d2, W.p2)], q.1.extractLsb' 0 3 = 0#3 ∧ q.2 ≠ 0#64) ∨
      (W.opcode.toNat ∈ [0, 2, 3, 4] ∧ (W.d1 ≠ 0#8 ∨ W.p1 ≠ 0#64)) ∨
      (W.opcode.toNat ≠ 6 ∧ (W.d2 ≠ 0#8 ∨ W.p2 ≠ 0#64)))

/-! ### Registers (10_state.md) -/

/-- R24: a read gives the low `w` bytes of the register as a number, or the bound error; it changes no state. -/
def Obligations.RegReadIsLowBytes : Prop :=
  ∀ (w : Width) (i : U64) (s : State),
    (16 ≤ i.toNat → regRead w i s = .error .registerIndexOutOfBounds) ∧
    (∀ h : i.toNat < 16, ∃ v : U64, regRead w i s = .ok v ∧
      v.toNat = (s.reg ⟨i.toNat, h⟩).toNat % 2 ^ (8 * widthBytes w))

/-- R25: a write changes the low `w` bytes of one register and nothing else of the machine, or gives the bound error. -/
def Obligations.RegWriteKeepsHighBytes : Prop :=
  ∀ (w : Width) (i v : U64) (s : State),
    (16 ≤ i.toNat → regWrite w i v s = .error .registerIndexOutOfBounds) ∧
    (∀ h : i.toNat < 16, ∃ t, regWrite w i v s = .ok t ∧ t = s.setRegs t.proc.regs ∧
      (∀ j : Fin 16, j.val ≠ i.toNat → t.reg j = s.reg j) ∧
      ∀ k < 64, (t.reg ⟨i.toNat, h⟩).getLsbD k =
        if k < 8 * widthBytes w then v.getLsbD k else (s.reg ⟨i.toNat, h⟩).getLsbD k)

/-- The four widths are views of the same bytes (R26, an inference the spec marks as its own from R24 and R25). -/
def Obligations.RegisterViewsAlias : Prop :=
  ∀ (w1 w2 : Width) (i v : U64) (s t : State) (h : i.toNat < 16), regWrite w1 i v s = .ok t →
    ∃ u : U64, regRead w2 i t = .ok u ∧
      ∀ k < 64, u.getLsbD k =
        if k < 8 * widthBytes w2 then
          (if k < 8 * widthBytes w1 then v.getLsbD k else (s.reg ⟨i.toNat, h⟩).getLsbD k)
        else false

/-! ### Memory (20_memory.md) -/

/-- `MemRead`: poison, then presence, then width, then the low bytes, little-endian. The order of the checks is decision D4 (log 5). -/
def Obligations.MemReadIsExactKeyed : Prop :=
  ∀ (addr : U64) (w : Width) (s : State),
    (s.ctx.memPoisoned = true → memRead addr w s = .error .memoryPoisoned) ∧
    (s.ctx.memPoisoned = false → Memory.cell addr.toNat s.ctx.mem = none → memRead addr w s = .error .addressNotPresent) ∧
    (∀ c, s.ctx.memPoisoned = false → Memory.cell addr.toNat s.ctx.mem = some c → c.length < widthBytes w →
      memRead addr w s = .error .widthMismatch) ∧
    (∀ c, s.ctx.memPoisoned = false → Memory.cell addr.toNat s.ctx.mem = some c → widthBytes w ≤ c.length →
      ∃ v : U64, memRead addr w s = .ok v ∧
        ∀ k < 64, v.getLsbD k = (decide (k < 8 * widthBytes w) && (c.getD (k / 8) 0#8).getLsbD (k % 8)))

/-- R53: a write replaces the cell under its key by exactly `w` bytes, little-endian, and changes nothing else of the machine; it fails only
when the store is poisoned. -/
def Obligations.MemWriteReplacesTheCell : Prop :=
  ∀ (addr : U64) (w : Width) (v : U64) (s : State),
    (s.ctx.memPoisoned = true → memWrite addr w v s = .error .memoryPoisoned) ∧
    (s.ctx.memPoisoned = false → ∃ (t : State) (cell : List Byte), memWrite addr w v s = .ok t ∧ t = s.setMem t.ctx.mem ∧
      Memory.cell addr.toNat t.ctx.mem = some cell ∧ cell.length = widthBytes w ∧
      (∀ k < widthBytes w, cell[k]? = some (v.extractLsb' (8 * k) 8)) ∧
      ∀ b, b ≠ addr.toNat → Memory.cell b t.ctx.mem = Memory.cell b s.ctx.mem)

/-- Reading after a write: the low bytes at the same or a smaller width, an error at a greater one, every other key as before (R55, an
inference the spec marks as its own from R52 and R53). -/
def Obligations.MemReadAfterWrite : Prop :=
  ∀ (a b : U64) (w1 w2 : Width) (v : U64) (s t : State), memWrite a w1 v s = .ok t →
    (widthBytes w2 ≤ widthBytes w1 → ∃ u : U64, memRead a w2 t = .ok u ∧ u.toNat = v.toNat % 2 ^ (8 * widthBytes w2)) ∧
    (widthBytes w1 < widthBytes w2 → memRead a w2 t = .error .widthMismatch) ∧
    (b ≠ a → memRead b w2 t = memRead b w2 s)

/-- No step and no access of a processor removes a cell: "once present an address stays present" (R55, an inference the spec marks as its own from
R52 and R53). For the steps and accesses of a host callback it rests on the contract of R177 (decision D12) and on log 13: a callback reaches the
store through `MemRead` and `MemWrite` alone. -/
def Obligations.CellsAreNeverRemoved : Prop :=
  ∀ (s t : State) (a : Nat), (step s = .next t ∨ accessStep s = .next t) →
    Memory.cell a s.ctx.mem ≠ none → Memory.cell a t.ctx.mem ≠ none

/-! ### Operands (40_operands.md) -/

/-- R112 to R114: what a source operand of each kind yields, always zero-extended, and the error it ends in. -/
def Obligations.OperandReadsByKind : Prop :=
  (∀ (v : U64) (s : State), readOperand (.immediate v) s = .ok v) ∧
  (∀ (w : Width) (i : U64) (s : State),
    (16 ≤ i.toNat → readOperand (.register w i) s = .error .registerIndexOutOfBounds) ∧
    ∀ h : i.toNat < 16, ∃ v : U64, readOperand (.register w i) s = .ok v ∧
      v.toNat = (s.reg ⟨i.toNat, h⟩).toNat % 2 ^ (8 * widthBytes w)) ∧
  ∀ (w : Width) (a : U64) (s : State),
    (s.ctx.memPoisoned = false → Memory.cell a.toNat s.ctx.mem = none →
      readOperand (.memory w a) s = .error .addressNotPresent) ∧
    ∀ bs, Memory.cell a.toNat s.ctx.mem = some bs →
      (s.ctx.memPoisoned = false → bs.length < widthBytes w → readOperand (.memory w a) s = .error .widthMismatch) ∧
      (widthBytes w ≤ bs.length →
        (s.ctx.memPoisoned = true → readOperand (.memory w a) s = .error .memoryPoisoned) ∧
        (s.ctx.memPoisoned = false → ∃ v : U64, readOperand (.memory w a) s = .ok v ∧
          v.toNat = natOfBytes bs % 2 ^ (8 * widthBytes w)))

/-- R116 and R120: the register-indirect form takes all 64 bits of the register as the key, whatever the width of the access, and fails on a bad
index before memory is touched; the register is not changed. -/
def Obligations.RegisterIndirectUsesWholeRegister : Prop :=
  ∀ (w : Width) (i v : U64) (s : State),
    (16 ≤ i.toNat → readOperand (.memoryRegister w i) s = .error .registerIndexOutOfBounds ∧
      writeOperand (.memoryRegister w i) v s = .error .registerIndexOutOfBounds) ∧
    (∀ h : i.toNat < 16,
      readOperand (.memoryRegister w i) s = memRead (s.reg ⟨i.toNat, h⟩) w s ∧
      writeOperand (.memoryRegister w i) v s = memWrite (s.reg ⟨i.toNat, h⟩) w v s ∧
      ∀ t, writeOperand (.memoryRegister w i) v s = .ok t → t.proc = s.proc)

/-! ### Mov (42_mov.md) -/

/-- Mov into register `j`: the low bytes of the value, the register's own bytes above, every other register as before, IC + 1; into register
15 the write is done and then incremented (decision D6, log 7). Nothing but registers changes. -/
def Obligations.MovToRegister : Prop :=
  ∀ (src : Operand) (w : Width) (j v : U64) (s : State) (h : j.toNat < 16), readOperand src s = .ok v →
    ∃ t, exec (.mov src (.register w j)) s = .next t ∧ t = s.setRegs t.proc.regs ∧
      (∀ i : Fin 16, i.val ≠ j.toNat → i ≠ 15 → t.reg i = s.reg i) ∧
      ∃ x : U64, (∀ k < 64, x.getLsbD k =
          if k < 8 * widthBytes w then v.getLsbD k else (s.reg ⟨j.toNat, h⟩).getLsbD k) ∧
        (if j.toNat = 15 then t.reg 15 = x + 1 else t.reg ⟨j.toNat, h⟩ = x ∧ t.reg 15 = s.reg 15 + 1)

/-- Mov into memory: the cell under the address the destination names is replaced by the low bytes of the value; every other cell, and
every register but IC, as before. -/
def Obligations.MovToMemory : Prop :=
  ∀ (src dst : Operand) (v a : U64) (s : State), readOperand src s = .ok v → operandAddress dst s = .ok a →
    s.ctx.memPoisoned = false →
    ∃ (t : State) (cell : List Byte), exec (.mov src dst) s = .next t ∧ t = (s.setMem t.ctx.mem).setIC (s.reg 15 + 1) ∧
      Memory.cell a.toNat t.ctx.mem = some cell ∧ cell.length = widthBytes (operandWidth dst) ∧
      (∀ k < widthBytes (operandWidth dst), cell[k]? = some (v.extractLsb' (8 * k) 8)) ∧
      ∀ b, b ≠ a.toNat → Memory.cell b t.ctx.mem = Memory.cell b s.ctx.mem

/-- Every failing Mov, each with nothing changed: an ill-shaped one; a failing read of src, whatever else would fail at dst; a destination that
names a register of index 16 or more, directly or as the address; a destination in a poisoned store (42_mov.md R150, 60_exceptions.md R184;
the order is decision D4, log 5). -/
def Obligations.MovFailures : Prop :=
  ∀ (src dst : Operand) (s : State),
    ((Instr.mov src dst).wellFormed = false → exec (.mov src dst) s = .next (s.setRun (.faulted .invalidOperand))) ∧
    (∀ k, (Instr.mov src dst).wellFormed = true → readOperand src s = .error k →
      exec (.mov src dst) s = .next (s.setRun (.faulted k))) ∧
    (∀ v : U64, readOperand src s = .ok v →
      (∀ (w : Width) (j : U64), 16 ≤ j.toNat → dst = .register w j ∨ dst = .memoryRegister w j →
        exec (.mov src dst) s = .next (s.setRun (.faulted .registerIndexOutOfBounds))) ∧
      (∀ a : U64, operandAddress dst s = .ok a → s.ctx.memPoisoned = true →
        exec (.mov src dst) s = .next (s.setRun (.faulted .memoryPoisoned))))

/-! ### Add (43_add.md; the cut of the operands to the destination width is decision D5, log 6) -/

/-- Result and carry of an Add at width `w`, as numbers: together they are the exact sum of the operands cut to the width. -/
def Obligations.AddIsExactWithCarry : Prop :=
  ∀ (w : Width) (a b : U64),
    (addResult w a b).toNat < 2 ^ (8 * widthBytes w) ∧
    (addResult w a b).toNat + (if addCarry w a b then 2 ^ (8 * widthBytes w) else 0) =
      a.toNat % 2 ^ (8 * widthBytes w) + b.toNat % 2 ^ (8 * widthBytes w)

/-- Add into register `j`: V is the carry out and no other flag bit changes; then the low bytes of register `j` become the sum. When `j` is 14
the sum is written over the flags after V; when `j` is 15 the sum is incremented (decisions D2, D5, D6; log 4, 6, 7). -/
def Obligations.AddToRegister : Prop :=
  ∀ (value source : Operand) (w : Width) (j a b : U64) (s : State) (h : j.toNat < 16),
    readOperand source s = .ok a → readOperand value s = .ok b →
    ∃ t, exec (.add value source (.register w j)) s = .next t ∧ t = s.setRegs t.proc.regs ∧
      (∀ i : Fin 16, i.val ≠ j.toNat → i ≠ 14 → i ≠ 15 → t.reg i = s.reg i) ∧
      ∃ f x : U64,
        (∀ k < 64, f.getLsbD k =
          if k = 2 then
            decide (2 ^ (8 * widthBytes w) ≤ a.toNat % 2 ^ (8 * widthBytes w) + b.toNat % 2 ^ (8 * widthBytes w))
          else (s.reg 14).getLsbD k) ∧
        (∀ k < 64, x.getLsbD k =
          if k < 8 * widthBytes w then ((a.toNat + b.toNat) % 2 ^ (8 * widthBytes w)).testBit k
          else (if j.toNat = 14 then f else s.reg ⟨j.toNat, h⟩).getLsbD k) ∧
        (t.reg 14 = if j.toNat = 14 then x else f) ∧
        (t.reg 15 = if j.toNat = 15 then x + 1 else s.reg 15 + 1) ∧
        (j.toNat ≠ 15 → t.reg ⟨j.toNat, h⟩ = x)

/-- Add into memory: V is the carry out; the cell under the address the destination names, read after V is written, becomes the sum at the
destination's width; every other cell, flag bit and register as before, IC + 1 (decisions D2, D5; log 4, 6). -/
def Obligations.AddToMemory : Prop :=
  ∀ (value source dst : Operand) (a b addr : U64) (s : State),
    readOperand source s = .ok a → readOperand value s = .ok b →
    operandAddress dst (addFlag dst a b s) = .ok addr → s.ctx.memPoisoned = false →
    ∃ (t : State) (c : List Byte) (f : U64), exec (.add value source dst) s = .next t ∧
      (∀ k < 64, f.getLsbD k =
        if k = 2 then
          decide (2 ^ (8 * widthBytes (operandWidth dst)) ≤
            a.toNat % 2 ^ (8 * widthBytes (operandWidth dst)) + b.toNat % 2 ^ (8 * widthBytes (operandWidth dst)))
        else (s.reg 14).getLsbD k) ∧
      t = ((s.setMem t.ctx.mem).setReg 14 f).setReg 15 (s.reg 15 + 1) ∧
      Memory.cell addr.toNat t.ctx.mem = some c ∧ c.length = widthBytes (operandWidth dst) ∧
      natOfBytes c = (a.toNat + b.toNat) % 2 ^ (8 * widthBytes (operandWidth dst)) ∧
      ∀ x, x ≠ addr.toNat → Memory.cell x t.ctx.mem = Memory.cell x s.ctx.mem

/-- An Add whose destination write fails has written V already and nothing else (43_add.md; the order is decision D4, log 5, 6). -/
def Obligations.AddFailingDestination : Prop :=
  ∀ (value source dst : Operand) (a b : U64) (s : State), readOperand source s = .ok a → readOperand value s = .ok b →
    (∀ (w : Width) (j : U64), 16 ≤ j.toNat → dst = .register w j ∨ dst = .memoryRegister w j →
      exec (.add value source dst) s =
        .next ((s.setV (decide (2 ^ (8 * widthBytes w) ≤
          a.toNat % 2 ^ (8 * widthBytes w) + b.toNat % 2 ^ (8 * widthBytes w)))).setRun
            (.faulted .registerIndexOutOfBounds))) ∧
    (∀ addr : U64, operandAddress dst (addFlag dst a b s) = .ok addr → s.ctx.memPoisoned = true →
      exec (.add value source dst) s =
        .next ((s.setV (decide (2 ^ (8 * widthBytes (operandWidth dst)) ≤
          a.toNat % 2 ^ (8 * widthBytes (operandWidth dst)) + b.toNat % 2 ^ (8 * widthBytes (operandWidth dst))))).setRun
            (.faulted .memoryPoisoned)))

/-- An Add that fails before it writes V changes nothing, V included: an ill-shaped one; a failing read of source, whatever value would do; a
failing read of value once source is read (43_add.md R155, 60_exceptions.md R184; the order is decision D4, log 5). -/
def Obligations.AddFailingReads : Prop :=
  ∀ (value source dst : Operand) (s : State),
    ((Instr.add value source dst).wellFormed = false →
      exec (.add value source dst) s = .next (s.setRun (.faulted .invalidOperand))) ∧
    (∀ k, (Instr.add value source dst).wellFormed = true → readOperand source s = .error k →
      exec (.add value source dst) s = .next (s.setRun (.faulted k))) ∧
    (∀ (a : U64) (k : ErrKind), (Instr.add value source dst).wellFormed = true → readOperand source s = .ok a →
      readOperand value s = .error k → exec (.add value source dst) s = .next (s.setRun (.faulted k)))

/-! ### Cmp (44_cmp.md) -/

/-- R160: the shape error, the read errors in order with nothing changed, and otherwise Z, G, IC and nothing else. -/
def Obligations.CmpOutcome : Prop :=
  ∀ (value comparator : Operand) (s : State),
    (value = .none ∨ comparator = .none →
      exec (.cmp value comparator) s = .next (s.setRun (.faulted .invalidOperand))) ∧
    (∀ k, value ≠ .none → comparator ≠ .none → readOperand value s = .error k →
      exec (.cmp value comparator) s = .next (s.setRun (.faulted k))) ∧
    (∀ a k, comparator ≠ .none → readOperand value s = .ok a → readOperand comparator s = .error k →
      exec (.cmp value comparator) s = .next (s.setRun (.faulted k))) ∧
    (∀ a b : U64, readOperand value s = .ok a → readOperand comparator s = .ok b →
      ∃ t, exec (.cmp value comparator) s = .next t ∧ t = s.setRegs t.proc.regs ∧
        (∀ i : Fin 16, i ≠ 14 → i ≠ 15 → t.reg i = s.reg i) ∧ t.reg 15 = s.reg 15 + 1 ∧
        (t.reg 14).getLsbD 0 = decide (a.toNat = b.toNat) ∧ (t.reg 14).getLsbD 1 = decide (b.toNat < a.toNat) ∧
        ∀ k, 2 ≤ k → (t.reg 14).getLsbD k = (s.reg 14).getLsbD k)

/-! ### Jumps (45_jumps.md) -/

/-- R165: the shape error, the read error with IC unchanged, and otherwise IC is the target and nothing else changes. -/
def Obligations.JmpOutcome : Prop :=
  ∀ (src : Operand) (s : State),
    (src = .none → exec (.jmp src) s = .next (s.setRun (.faulted .invalidOperand))) ∧
    (∀ k, src ≠ .none → readOperand src s = .error k → exec (.jmp src) s = .next (s.setRun (.faulted k))) ∧
    (∀ v : U64, readOperand src s = .ok v →
      ∃ t, exec (.jmp src) s = .next t ∧ t = s.setRegs t.proc.regs ∧ t.reg 15 = v ∧
        ∀ i : Fin 16, i ≠ 15 → t.reg i = s.reg i)

/-- Jz: not taken it resolves nothing and only moves IC on; taken it clears Z alone and lands on the target; taken with a failing operand
it changes nothing (decisions D2, D7; log 4, 8). -/
def Obligations.JzOutcome : Prop :=
  ∀ (src : Operand) (s : State),
    (src = .none → exec (.jz src) s = .next (s.setRun (.faulted .invalidOperand))) ∧
    (src ≠ .none → (s.reg 14).getLsbD 0 = false → exec (.jz src) s = .next (s.setReg 15 (s.reg 15 + 1))) ∧
    (∀ k, src ≠ .none → (s.reg 14).getLsbD 0 = true → readOperand src s = .error k →
      exec (.jz src) s = .next (s.setRun (.faulted k))) ∧
    (∀ v : U64, (s.reg 14).getLsbD 0 = true → readOperand src s = .ok v →
      ∃ t, exec (.jz src) s = .next t ∧ t = s.setRegs t.proc.regs ∧ t.reg 15 = v ∧
        (∀ i : Fin 16, i ≠ 14 → i ≠ 15 → t.reg i = s.reg i) ∧
        ∀ k, (t.reg 14).getLsbD k = (decide (k ≠ 0) && (s.reg 14).getLsbD k))

/-- Jnz: taken it lands on the target with the flags untouched; not taken it resolves nothing and leaves Z at 1 (decision D7, log 8). -/
def Obligations.JnzOutcome : Prop :=
  ∀ (src : Operand) (s : State),
    (src = .none → exec (.jnz src) s = .next (s.setRun (.faulted .invalidOperand))) ∧
    (src ≠ .none → (s.reg 14).getLsbD 0 = true → exec (.jnz src) s = .next (s.setReg 15 (s.reg 15 + 1))) ∧
    (∀ k, src ≠ .none → (s.reg 14).getLsbD 0 = false → readOperand src s = .error k →
      exec (.jnz src) s = .next (s.setRun (.faulted k))) ∧
    (∀ v : U64, (s.reg 14).getLsbD 0 = false → readOperand src s = .ok v →
      exec (.jnz src) s = .next (s.setReg 15 v))

/-! ### Call (46_call.md) -/

/-- Index 0 is the dump whatever the table holds: one more event with the registers as they are, IC + 1, nothing else (decision D22,
log 22). -/
def Obligations.CallZeroDumps : Prop :=
  ∀ (idx : Operand) (s : State), readOperand idx s = .ok 0#64 →
    exec (.call idx) s = .next ((s.setDumps (s.dumps ++ [s.proc.regs])).setReg 15 (s.reg 15 + 1))

/-- An index that is neither 0 nor registered ends the run with CallIndexUnknown and changes nothing; an operand that cannot be read ends
it with that error (decision D8, log 9). -/
def Obligations.CallUnknownIndex : Prop :=
  ∀ (idx : Operand) (s : State),
    (∀ n : U64, readOperand idx s = .ok n → n ≠ 0#64 → n ∉ s.callTable →
      exec (.call idx) s = .next (s.setRun (.faulted .callIndexUnknown))) ∧
    (∀ k, idx ≠ .none → readOperand idx s = .error k → exec (.call idx) s = .next (s.setRun (.faulted k)))

/-- A registered index runs its callback to its return, whatever the callback does (R177, decision D12, log 12; that it returns, and what it can
reach, log 13): success goes on at the value it left in x[15] plus 1 (decision D6, log 7), an error kind ends the run; the stream, the other
processors, the table and the dump events stay, poison is never cleared, no cell is removed and the store stays canonical. -/
def Obligations.CallRunsCallback : Prop :=
  ∀ (idx : Operand) (n : U64) (s : State), readOperand idx s = .ok n → n ≠ 0#64 → n ∈ s.callTable →
    ∃ (t u : State) (result : Option ErrKind), exec (.call idx) s = .next t ∧
      callbackRun (callbackOf n s) (countDraw s) = (result, u) ∧
      (result = none → t = u.setReg 15 (u.reg 15 + 1) ∧ t.proc.run = s.proc.run) ∧
      (∀ k, result = some k → t = u.setRun (.faulted k)) ∧
      t.ctx.stream = s.ctx.stream ∧ t.others = s.others ∧ t.callTable = s.callTable ∧ t.dumps = s.dumps ∧
      t.proc.phase = s.proc.phase ∧
      (s.ctx.streamPoisoned = true → t.ctx.streamPoisoned = true) ∧
      (s.ctx.memPoisoned = true → t.ctx.memPoisoned = true) ∧
      (∀ a, Memory.cell a s.ctx.mem ≠ none → Memory.cell a t.ctx.mem ≠ none) ∧
      (Memory.wf s.ctx.mem = true → Memory.wf t.ctx.mem = true)

/-- One access of a callback: a read is answered from the register or the store as it is at that access, so it sees what another processor or
the host has written or poisoned since the last one; a write is done or answered with its error; the answer decides how the callback goes on;
its return ends the Call (R177 and R64, decisions D12, D17, D6; log 7, 13, 18). -/
def Obligations.CallbackAccessOutcome : Prop :=
  (∀ (n : U64) (draw : Nat) (answers : List CallbackAnswer) (s : State), s.proc.run = .running →
    s.proc.phase = .callback n draw answers →
    accessStep s =
      match callbackAfter (Config.hostCallback n draw) answers with
      | .ret none => .next ((s.setPhase .boundary).setReg 15 (s.reg 15 + 1))
      | .ret (some k) => .next ((s.setPhase .boundary).setRun (.faulted k))
      | .act (.regRead w i) _ =>
        match regRead w i s with
        | .ok v => .next (s.setPhase (.callback n draw (answers ++ [.value v])))
        | .error k => .next (s.setPhase (.callback n draw (answers ++ [.error k])))
      | .act (.memRead addr w) _ =>
        match memRead addr w s with
        | .ok v => .next (s.setPhase (.callback n draw (answers ++ [.value v])))
        | .error k => .next (s.setPhase (.callback n draw (answers ++ [.error k])))
      | .act (.regWrite w i v) _ =>
        match regWrite w i v s with
        | .ok t => .next (t.setPhase (.callback n draw (answers ++ [.done])))
        | .error k => .next (s.setPhase (.callback n draw (answers ++ [.error k])))
      | .act (.memWrite addr w v) _ =>
        match memWrite addr w v s with
        | .ok t => .next (t.setPhase (.callback n draw (answers ++ [.done])))
        | .error k => .next (s.setPhase (.callback n draw (answers ++ [.error k])))
      | .act .poisonMemory _ => .next ((s.setMemPoisoned true).setPhase (.callback n draw (answers ++ [.done])))
      | .act .poisonStream _ => .next ((s.setStreamPoisoned true).setPhase (.callback n draw (answers ++ [.done])))) ∧
  ∀ (c : CallbackTree) (answers : List CallbackAnswer) (a : CallbackAct) (next : CallbackAnswer → CallbackTree) (x : CallbackAnswer),
    callbackAfter c answers = .act a next → callbackAfter c (answers ++ [x]) = next x

/-! ### All instructions -/

/-- An ill-shaped instruction raises InvalidOperand and has changed nothing, whatever else is wrong with it and whether or not a jump would be
taken (40_operands.md section 3; decision D4, log 5). -/
def Obligations.IllShapedInstruction : Prop :=
  ∀ (i : Instr) (s : State), i.wellFormed = false → exec i s = .next (s.setRun (.faulted .invalidOperand))

/-- Every instruction in every state has an outcome the spec describes: the machine goes on or the run is Faulted; the model stops on
none (log 1). For a Call of a registered index it rests on log 13: that every callback returns, as R177 says. -/
def Obligations.ExecAlwaysAnswers : Prop :=
  ∀ (i : Instr) (s : State), ∃ t, exec i s = .next t ∧
    (t.proc.run = s.proc.run ∨ ∃ k, t.proc.run = .faulted k) ∧ t.proc.phase = s.proc.phase

/-- The table of 60_exceptions.md R181, the kinds a callback returns apart (an inference the spec marks as its own); MemoryPoisoned only when
the store is poisoned. -/
def Obligations.ErrorKindsByInstruction : Prop :=
  ∀ (i : Instr) (s t : State) (k : ErrKind), isFaulted s = false → runsCallback i s = false → exec i s = .next t →
    t.proc.run = .faulted k → mayRaise i s.flagZ k = true ∧ (k = .memoryPoisoned → s.ctx.memPoisoned = true)

/-- A failing instruction has changed nothing but the run state, except that an Add whose sources were read and whose destination write fails
has written the carry to V (60_exceptions.md R187, an inference the spec marks as its own; order decided in D4, the cut of the operands in D5,
log 5, 6; the place of V is D2, log 4). -/
def Obligations.FailureChangesOnlyOverflow : Prop :=
  ∀ (i : Instr) (s t : State) (k : ErrKind), isFaulted s = false → runsCallback i s = false → exec i s = .next t →
    t.proc.run = .faulted k →
    t = s.setRun (.faulted k) ∨
      ∃ (value source dst : Operand) (a b : U64) (u : State), i = .add value source dst ∧
        readOperand source s = .ok a ∧ readOperand value s = .ok b ∧
        u = s.setV (decide (2 ^ (8 * widthBytes (operandWidth dst)) ≤
          a.toNat % 2 ^ (8 * widthBytes (operandWidth dst)) + b.toNat % 2 ^ (8 * widthBytes (operandWidth dst)))) ∧
        writeOperand dst (addResult (operandWidth dst) a b) u = .error k ∧
        (k = .registerIndexOutOfBounds ∨ (k = .memoryPoisoned ∧ s.ctx.memPoisoned = true)) ∧ t = u.setRun (.faulted k)

/-- One net movement of IC in a step: an error leaves it, a taken transfer sets it to the value of its operand exactly, everything else adds
1. Instructions that write register 15 as a destination (decision D6) and callbacks are stated elsewhere. -/
def Obligations.CounterMovesOnce : Prop :=
  ∀ (i : Instr) (s t : State), isFaulted s = false → runsCallback i s = false → writesRegister i 15 = false →
    exec i s = .next t →
    (isFaulted t = true → t.reg 15 = s.reg 15) ∧
    (isFaulted t = false → takenTarget i s = none → t.reg 15 = s.reg 15 + 1) ∧
    (∀ src, isFaulted t = false → takenTarget i s = some src → readOperand src s = .ok (t.reg 15))

/-- The flag table of 10_state.md R32: only these instructions change these bits of FLAGS implicitly (bit positions are decision D2, log 4). -/
def Obligations.FlagsChangeOnlyAsTabled : Prop :=
  ∀ (i : Instr) (s t : State) (k : Nat), runsCallback i s = false → writesRegister i 14 = false → exec i s = .next t →
    (t.reg 14).getLsbD k ≠ (s.reg 14).getLsbD k →
    (k = 0 ∧ ((∃ a b, i = .cmp a b) ∨ ((∃ src, i = .jz src) ∧ (s.reg 14).getLsbD 0 = true ∧ (t.reg 14).getLsbD 0 = false))) ∨
      (k = 1 ∧ ∃ a b, i = .cmp a b) ∨ (k = 2 ∧ ∃ a b d, i = .add a b d)

/-- Registers 0 to 13 change only through a destination operand that names them (10_state.md R27, an inference the spec marks as its own). -/
def Obligations.GeneralRegistersFrame : Prop :=
  ∀ (i : Instr) (s t : State) (j : Fin 16), runsCallback i s = false → exec i s = .next t → j.val < 14 →
    writesRegister i j.val = false → t.reg j = s.reg j

/-- An instruction without a destination in memory leaves the whole context as it is; none but a Call adds a dump event; none touches the other
processors or the call table (20_memory.md R58, 60_exceptions.md R196). -/
def Obligations.NonStoringFrame : Prop :=
  ∀ (i : Instr) (s t : State), runsCallback i s = false → exec i s = .next t →
    (storesToMemory i = false → t.ctx = s.ctx) ∧ t.others = s.others ∧ t.callTable = s.callTable ∧ t.draws = s.draws ∧
    ((∀ idx, i ≠ .call idx) → t.dumps = s.dumps)

/-- A Mov or Add with a destination in memory changes no cell but the one under the address its destination names (for an Add, in the state
after V is written), no other part of the context, and no register but FLAGS (Add) and IC. -/
def Obligations.StoringFrame : Prop :=
  (∀ (src dst : Operand) (s t : State), inMemory dst = true → exec (.mov src dst) s = .next t →
    t.ctx = (s.setMem t.ctx.mem).ctx ∧ (∀ j : Fin 16, j ≠ 15 → t.reg j = s.reg j) ∧
    (∀ a : U64, operandAddress dst s = .ok a → ∀ b, b ≠ a.toNat → Memory.cell b t.ctx.mem = Memory.cell b s.ctx.mem) ∧
    (∀ k, operandAddress dst s = .error k → t.ctx = s.ctx)) ∧
  (∀ (value source dst : Operand) (x y : U64) (s t : State), inMemory dst = true → readOperand source s = .ok x →
    readOperand value s = .ok y → exec (.add value source dst) s = .next t →
    t.ctx = (s.setMem t.ctx.mem).ctx ∧ (∀ j : Fin 16, j ≠ 14 → j ≠ 15 → t.reg j = s.reg j) ∧
    (∀ a : U64, operandAddress dst (addFlag dst x y s) = .ok a →
      ∀ b, b ≠ a.toNat → Memory.cell b t.ctx.mem = Memory.cell b s.ctx.mem) ∧
    (∀ k, operandAddress dst (addFlag dst x y s) = .error k → t.ctx = s.ctx))

/-! ### The step (41_engine.md) -/

/-- A step runs the decoded instruction: between two instructions of a running processor, with an unpoisoned stream whose slot at IC
decodes to `i`, the step is `exec i`, and nothing is added around it. -/
def Obligations.StepRunsDecoded : Prop :=
  ∀ (s : State) (W : Slot) (i : Instr), s.proc.run = .running → s.proc.phase = .boundary → s.ctx.streamPoisoned = false →
    s.ctx.stream[(s.reg 15).toNat]? = some W → decode W = .ok i → step s = exec i s

/-- R132: IC at or past the stream's length, whatever its value, ends the run successfully with no register changed, an empty stream at
once; and no step and no access ends a run successfully in any other way. -/
def Obligations.StepHaltsPastTheEnd : Prop :=
  (∀ s : State, s.proc.run = .running → s.proc.phase = .boundary → s.ctx.streamPoisoned = false →
    s.ctx.stream.length ≤ (s.reg 15).toNat →
    ∃ t, step s = .next t ∧ t = s.setRun .halted ∧ startResult t = some (.ok ())) ∧
  ∀ s t : State, (step s = .next t ∨ accessStep s = .next t) → s.proc.run ≠ .halted → t.proc.run = .halted →
    s.proc.run = .running ∧ s.ctx.stream.length ≤ (s.reg 15).toNat ∧ s.proc.phase = .boundary ∧ s.ctx.streamPoisoned = false ∧ t = s.setRun .halted

/-- R134: a taken transfer lands on its target, all 64 bits of what its operand reads, and is not incremented; the next step runs the
instruction at that index, or halts when there is none. -/
def Obligations.TakenTransferLands : Prop :=
  ∀ (i : Instr) (src : Operand) (target : U64) (s : State), takenTarget i s = some src → readOperand src s = .ok target →
    ∃ t, exec i s = .next t ∧ t.reg 15 = target ∧ t.proc.run = s.proc.run ∧ t.ctx = s.ctx ∧
      (s.proc.run = .running → s.proc.phase = .boundary → s.ctx.streamPoisoned = false →
        (s.ctx.stream.length ≤ target.toNat → step t = .next (t.setRun .halted)) ∧
        ∀ (W : Slot) (j : Instr), s.ctx.stream[target.toNat]? = some W → decode W = .ok j →
          step t = exec j t)

/-- A poisoned stream is reported before the range check, an undecodable slot before anything of the instruction; neither changes
anything but the run state (decisions D9, D13; log 10, 14). -/
def Obligations.StepFetchErrors : Prop :=
  ∀ s : State, s.proc.run = .running → s.proc.phase = .boundary →
    (s.ctx.streamPoisoned = true → step s = .next (s.setRun (.faulted .instructionsPoisoned))) ∧
    (∀ (W : Slot) (r : Reject), s.ctx.streamPoisoned = false → s.ctx.stream[(s.reg 15).toNat]? = some W →
      decode W = .error r → step s = .next (s.setRun (.faulted .illegalInstruction)))

/-- A processor runs only when the host calls its `start()`: an Idle or a Halted one makes neither a step nor an access (that its turn then
changes nothing is log 2), `start()` makes it Running and changes nothing else (decision D15, log 16) and is refused on a Running one (log 24);
started again where it halted it halts again and nothing has changed; no step and no access makes a processor run; no action of the host but
`start()` makes one run that did not, and none stops or changes one that does (60_exceptions.md R197; 41_engine.md R130; R224, an inference the
spec marks as its own; what the host may do is in part the model's choice: log 18, 21, 24, 26). -/
def Obligations.OnlyStartMakesAProcessorRun : Prop :=
  (∀ s : State, s.proc.run = .idle ∨ s.proc.run = .halted →
    step s = .next s ∧ accessStep s = .next s ∧ hostStart s = .ok (s.setRun .running)) ∧
  (∀ s : State, s.proc.run = .running → hostStart s = .refused .processorRunning) ∧
  (∀ s : State, s.proc.run = .halted → s.proc.phase = .boundary → s.ctx.streamPoisoned = false →
    s.ctx.stream.length ≤ (s.reg 15).toNat → ∃ u, hostStart s = .ok u ∧ step u = .next s) ∧
  (∀ s t : State, step s = .next t ∨ accessStep s = .next t → t.proc.run = .running → s.proc.run = .running) ∧
  ∀ (a : HostAction) (s t : State), hostAct a s = .ok t →
    (a ≠ .start → ∀ p ∈ t.proc :: t.others, p.run = .running → p ∈ s.proc :: s.others) ∧
    ∀ p ∈ s.proc :: s.others, p.run = .running → p ∈ t.proc :: t.others

/-- A Faulted processor is not continued (60_exceptions.md R188; decision D14, log 15), neither by a step nor by an access nor by `start()`. -/
def Obligations.FaultedIsRefused : Prop :=
  ∀ (s : State) (k : ErrKind), s.proc.run = .faulted k →
    step s = .refused (.runFaulted k) ∧ accessStep s = .refused (.runFaulted k) ∧ hostStart s = .refused (.runFaulted k)

/-- No step and no access of a processor writes the stream, touches another processor or the call table, or clears a poison flag
(20_memory.md R69, an inference the spec marks as its own; 60_exceptions.md R196, R199; 10_state.md R37, decision D18, log 19). For the
steps and accesses of a host callback it rests on R177 (decision D12) and on log 13: what a callback can reach. -/
def Obligations.StreamAndOthersUntouched : Prop :=
  ∀ s t : State, step s = .next t ∨ accessStep s = .next t →
    t.ctx.stream = s.ctx.stream ∧ t.others = s.others ∧ t.callTable = s.callTable ∧
    (s.ctx.streamPoisoned = true → t.ctx.streamPoisoned = true) ∧ (s.ctx.memPoisoned = true → t.ctx.memPoisoned = true)

/-- What the other processors hold plays no part in a step or in a single access (60_exceptions.md R196: no shared register state; for a host
callback R177, "It cannot reach another processor's registers", and log 13). -/
def Obligations.OtherProcessorsDoNotMatter : Prop :=
  ∀ (s : State) (o : List Proc),
    (step { s with others := o } =
      match step s with
      | .next t => .next { t with others := o }
      | .fault f => .fault f
      | .refused r => .refused r) ∧
    accessStep { s with others := o } =
      match accessStep s with
      | .next t => .next { t with others := o }
      | .fault f => .fault f
      | .refused r => .refused r

/-- A step is its accesses made one after another with nothing between: the access-by-access machine, run from the start of a step until
the processor is between instructions again, ends where the step ends (20_memory.md R63, R65; 41_engine.md R141; decision D17, log 18). That
the accesses of every Call end rests on log 13: a callback returns, as R177 says. -/
def Obligations.AccessesMakeTheStep : Prop :=
  ∀ s : State, s.proc.phase = .boundary →
    ∃ n, ∀ m, n ≤ m →
      (match accessStep s with
        | .next t => accessRun m t
        | .fault f => .fault f
        | .refused r => .refused r) = step s

/-! ### Invariant and reset -/

/-- Every step keeps the invariant: store canonical, stream shorter than 2^64 (decision D21, log 17), every processor well kept. For the step of a
host callback it rests on log 13: what a callback can reach. -/
def Obligations.StepKeepsInvariant : Prop :=
  ∀ s t : State, s.Inv → step s = .next t → t.Inv

/-- Every single access keeps the invariant; an access of a host callback under log 13. -/
def Obligations.AccessKeepsInvariant : Prop :=
  ∀ s t : State, s.Inv → accessStep s = .next t → t.Inv

/-- Every action of the host keeps the invariant (what the host may do, and when, is in part the model's choice: log 21, 24, 26, 28). -/
def Obligations.HostActKeepsInvariant : Prop :=
  ∀ (a : HostAction) (s t : State), s.Inv → hostAct a s = .ok t → t.Inv

/-- The state after reset meets the invariant. -/
def Obligations.ResetMeetsInvariant : Prop := State.reset.Inv

/-- The reset table of 10_state.md R39 (decision D3, log 3), and the default empty call table (00_scope.md R8). -/
def Obligations.ResetValues : Prop :=
  (∀ i : Fin 16, State.reset.reg i = 0#64) ∧ State.reset.proc.run = .idle ∧ State.reset.ctx.stream = [] ∧
    State.reset.ctx.mem = [] ∧ State.reset.ctx.streamPoisoned = false ∧ State.reset.ctx.memPoisoned = false ∧
    State.reset.callTable = []

/-! ### The host's side (10_state.md section 2, 20_memory.md section 7) -/

/-- Loading replaces the stream and nothing else, and every processor of the context fetches from the new one, whatever its own
registers: its instruction at IC, or out of range; a poisoned stream turns the load down (20_memory.md R67; decision D15, log 16). -/
def Obligations.LoadReplacesOnlyTheStream : Prop :=
  ∀ (is : List Instr) (s : State),
    (s.ctx.streamPoisoned = true → hostLoad is s = .error .instructionsPoisoned) ∧
    (s.ctx.streamPoisoned = false → is.length < 2 ^ 64 →
      ∃ t, hostLoad is s = .ok t ∧ t = s.setStream t.ctx.stream ∧
        ∀ u : State, u.ctx = t.ctx →
          (∀ i, is[(u.reg 15).toNat]? = some i → fetch u = .instr i) ∧
          (is.length ≤ (u.reg 15).toNat → fetch u = .outOfRange))

/-- A binary image: 32*L bytes, the slot with index k being bytes 32*k to 32*k+31, byte 0 the lowest; loading it replaces the stream by those slots,
Invalid ones kept, which fault only if fetched; the image of encoded instructions is the load of those instructions (30_encoding.md R93, R84;
decision D1, log 10; the bound is D21, log 17). -/
def Obligations.LoadImageIsItsSlots : Prop :=
  (∀ (image : List Byte) (L : Nat) (s : State), image.length = 32 * L → L < 2 ^ 64 → s.ctx.streamPoisoned = false →
    ∃ t, hostLoadImage image s = .ok t ∧ t = s.setStream t.ctx.stream ∧ t.ctx.stream.length = L ∧
      ∀ k < L, ∃ W, t.ctx.stream[k]? = some W ∧
        (∀ j < 32, image[32 * k + j]? = some (W.extractLsb' (8 * j) 8)) ∧
        ∀ (u : State) (r : Reject), u.ctx = t.ctx → (u.reg 15).toNat = k → decode W = .error r → fetch u = .invalid r) ∧
  ∀ (is : List Instr) (s : State), hostLoadImage (encodeImage is) s = hostLoad is s

/-- "For every register index 0–15 and every width, write(w,v) then read(w) returns v unchanged" (10_state.md R22), for a value that fits. -/
def Obligations.HostSetThenGet : Prop :=
  ∀ (w : Width) (i v : U64) (s : State), i.toNat < 16 → s.proc.run ≠ .running → v.toNat < 2 ^ (8 * widthBytes w) →
    ∃ t, hostRegSet w i v s = .ok t ∧ t = s.setRegs t.proc.regs ∧ hostRegGet w i t = .ok v

/-- The signed view is two's complement at each width: the get is the integer of the low bytes, the set stores the bytes whose number is the
integer modulo 2^(8w) and keeps the bytes above (10_state.md R28, R29; decision D19, which the spec marks as general knowledge, log 20). -/
def Obligations.SignedViewIsTwosComplement : Prop :=
  ∀ (w : Width) (i : U64) (s : State) (h : i.toNat < 16), s.proc.run ≠ .running →
    hostRegGetSigned w i s = .ok ((s.reg ⟨i.toNat, h⟩).setWidth (8 * widthBytes w)).toInt ∧
    ∀ x : Int, -(2 ^ (8 * widthBytes w - 1)) ≤ x → x < 2 ^ (8 * widthBytes w - 1) →
      ∃ (t : State) (v : U64), hostRegSetSigned w i x s = .ok t ∧ hostRegGetSigned w i t = .ok x ∧
        hostRegGet w i t = .ok v ∧ (v.toNat : Int) = x % 2 ^ (8 * widthBytes w) ∧
        ∀ k, 8 * widthBytes w ≤ k → (t.reg ⟨i.toNat, h⟩).getLsbD k = (s.reg ⟨i.toNat, h⟩).getLsbD k

/-- The float view moves bit patterns unchanged: the low 4 bytes of the register ARE the binary32 pattern and all 8 the binary64 pattern, got and
set; the other bytes are kept on a DWord set; it is refused at Byte and Word (10_state.md R28, R30; decision D19, log 20). -/
def Obligations.FloatViewMovesBits : Prop :=
  ∀ (i : U64) (s : State) (h : i.toNat < 16), s.proc.run ≠ .running →
    hostRegGetFloat .byte i s = .refused .floatViewWidth ∧ hostRegGetFloat .word i s = .refused .floatViewWidth ∧
    hostRegGetFloat .dword i s = .ok (.binary32 ((s.reg ⟨i.toNat, h⟩).extractLsb' 0 32)) ∧
    hostRegGetFloat .qword i s = .ok (.binary64 (s.reg ⟨i.toNat, h⟩)) ∧
    (∀ b : BitVec 32, ∃ t, hostRegSetFloat i (.binary32 b) s = .ok t ∧ hostRegGetFloat .dword i t = .ok (.binary32 b) ∧
      hostRegGet .dword i t = .ok (b.setWidth 64) ∧
      ∀ k < 64, (t.reg ⟨i.toNat, h⟩).getLsbD k = if k < 32 then b.getLsbD k else (s.reg ⟨i.toNat, h⟩).getLsbD k) ∧
    (∀ b : BitVec 64, ∃ t, hostRegSetFloat i (.binary64 b) s = .ok t ∧ hostRegGetFloat .qword i t = .ok (.binary64 b) ∧
      hostRegGet .qword i t = .ok b ∧ t.reg ⟨i.toNat, h⟩ = b)

/-- Every host register accessor, unsigned, signed and float, is refused while the processor runs (10_state.md R28, U12; log 24). -/
def Obligations.RunningRefusesRegisterAccess : Prop :=
  ∀ (w : Width) (i v : U64) (x : Int) (f : FloatBits) (s : State), s.proc.run = .running →
    hostRegGet w i s = .refused .processorRunning ∧ hostRegSet w i v s = .refused .processorRunning ∧
    hostRegGetSigned w i s = .refused .processorRunning ∧ hostRegSetSigned w i x s = .refused .processorRunning ∧
    hostRegGetFloat .dword i s = .refused .processorRunning ∧ hostRegGetFloat .qword i s = .refused .processorRunning ∧
    hostRegSetFloat i f s = .refused .processorRunning

/-- Bringing another processor into focus changes neither the context nor any processor, and doing it again undoes it (60_exceptions.md R196,
R197; log 18). -/
def Obligations.FocusIsUndone : Prop :=
  ∀ (k : Nat) (s t : State), hostFocus k s = .ok t →
    t.ctx = s.ctx ∧ s.others[k]? = some t.proc ∧ t.others[k]? = some s.proc ∧ hostFocus k t = .ok s

/-- What `start()` returns as a number (60_exceptions.md R180; decision D11, log 11). -/
def Obligations.StatusCodes : Prop :=
  (∀ s : State, s.proc.run = .halted → startStatus s = some 0) ∧
  (∀ s : State, s.proc.run = .idle ∨ s.proc.run = .running → startStatus s = none) ∧
  (∀ (s : State) (k : ErrKind), s.proc.run = .faulted k → startStatus s = some k.code) ∧
  [ErrKind.registerIndexOutOfBounds, .processorIndexOutOfBounds, .instructionsPoisoned, .memoryPoisoned, .invalidOperand,
    .addressNotPresent, .widthMismatch, .callIndexUnknown, .illegalInstruction].map ErrKind.code = [1, 2, 3, 4, 5, 6, 7, 8, 9]
end

