-- ==== Sys2Proof/Laws/Bits.lean ====
section
/-! SUPPORT. The bits and numbers behind the width operations: `cut`, `insertLow`, and the little-endian bytes of a value. -/

namespace Sys2Proof.Machine

/-- Bit `k` of a width's mask. -/
theorem getLsbD_lowMask (w : Width) (k : Nat) : (lowMask w).getLsbD k = decide (k < widthBits w) := by
  have e : lowMask w = BitVec.ofNat 64 (2 ^ widthBits w - 1) := by cases w <;> rfl
  have h : widthBits w ≤ 64 := by cases w <;> decide
  rw [e, BitVec.getLsbD_ofNat, Nat.testBit_two_pow_sub_one]
  by_cases hk : k < widthBits w
  · have : k < 64 := by omega
    simp [hk, this]
  · simp [hk]

theorem getLsbD_cut (w : Width) (v : U64) (k : Nat) :
    (cut w v).getLsbD k = (decide (k < widthBits w) && v.getLsbD k) := by
  simp [cut, getLsbD_lowMask, Bool.and_comm]

theorem getLsbD_insertLow (w : Width) (old v : U64) (k : Nat) :
    (insertLow w old v).getLsbD k = if k < widthBits w then v.getLsbD k else old.getLsbD k := by
  have e := getLsbD_lowMask w k
  unfold insertLow
  generalize lowMask w = m at e
  by_cases h64 : k < 64
  · have e' : m[k] = decide (k < widthBits w) := by rwa [BitVec.getLsbD_eq_getElem h64] at e
    by_cases h : k < widthBits w <;> simp [h64, e', h]
  · have : 64 ≤ k := by omega
    simp [BitVec.getLsbD_of_ge, this]

theorem toNat_cut (w : Width) (v : U64) : (cut w v).toNat = v.toNat % 2 ^ widthBits w := by
  apply Nat.eq_of_testBit_eq
  intro k
  have h := getLsbD_cut w v k
  simp only [BitVec.getLsbD] at h
  rw [h, Nat.testBit_mod_two_pow]

@[simp] theorem cut_cut (w : Width) (v : U64) : cut w (cut w v) = cut w v := by
  simp [cut, BitVec.and_assoc]

@[simp] theorem cut_qword (v : U64) : cut .qword v = v := by
  apply BitVec.eq_of_toNat_eq
  rw [toNat_cut]
  exact Nat.mod_eq_of_lt v.isLt

@[simp] theorem insertLow_qword (old v : U64) : insertLow .qword old v = v := by
  apply BitVec.eq_of_getLsbD_eq
  intro k hk
  have h : k < widthBits .qword := hk
  simp [getLsbD_insertLow, h]

theorem cut_insertLow_self (w : Width) (old v : U64) : cut w (insertLow w old v) = cut w v := by
  apply BitVec.eq_of_getLsbD_eq
  intro k _
  rw [getLsbD_cut, getLsbD_cut, getLsbD_insertLow]
  by_cases h : k < widthBits w <;> simp [h]

/-! ### Bytes -/

@[simp] theorem length_bytesOfNat (n v : Nat) : (bytesOfNat n v).length = n := by
  induction n generalizing v with
  | zero => rfl
  | succ n ih => simp [bytesOfNat, ih]

theorem natOfBytes_bytesOfNat (n v : Nat) : natOfBytes (bytesOfNat n v) = v % 256 ^ n := by
  induction n generalizing v with
  | zero => simp [bytesOfNat, natOfBytes, Nat.mod_one]
  | succ n ih =>
    simp only [bytesOfNat, natOfBytes, ih, BitVec.toNat_ofNat]
    have e : 256 ^ (n + 1) = 256 * 256 ^ n := by rw [Nat.pow_succ, Nat.mul_comm]
    rw [e, Nat.mod_mul]

theorem take_bytesOfNat (m n v : Nat) (h : m ≤ n) : (bytesOfNat n v).take m = bytesOfNat m v := by
  induction m generalizing n v with
  | zero => simp [bytesOfNat]
  | succ m ih =>
    cases n with
    | zero => omega
    | succ n => simp [bytesOfNat, ih n (v / 256) (by omega)]

theorem getElem?_bytesOfNat (n v k : Nat) (h : k < n) :
    (bytesOfNat n v)[k]? = some (BitVec.ofNat 8 (v / 256 ^ k)) := by
  induction n generalizing v k with
  | zero => omega
  | succ n ih =>
    cases k with
    | zero => simp [bytesOfNat]
    | succ k =>
      simp only [bytesOfNat, List.getElem?_cons_succ]
      rw [ih (v / 256) k (by omega), Nat.div_div_eq_div_mul, Nat.pow_succ, Nat.mul_comm 256]

theorem bytesOfNat_natOfBytes (bs : List Byte) : bytesOfNat bs.length (natOfBytes bs) = bs := by
  induction bs with
  | nil => rfl
  | cons b bs ih =>
    have h1 : (b.toNat + 256 * natOfBytes bs) / 256 = natOfBytes bs := by
      have := b.isLt
      omega
    have h2 : BitVec.ofNat 8 (b.toNat + 256 * natOfBytes bs) = b := by
      apply BitVec.eq_of_toNat_eq
      have := b.isLt
      simp only [BitVec.toNat_ofNat]
      omega
    simp [natOfBytes, bytesOfNat, h1, h2, ih]

theorem natOfBytes_lt (bs : List Byte) : natOfBytes bs < 256 ^ bs.length := by
  induction bs with
  | nil => simp [natOfBytes]
  | cons b bs ih =>
    have := b.isLt
    simp only [natOfBytes, List.length_cons, Nat.pow_succ]
    omega

/-- Byte `k` of a little-endian number holds its bits `8*k` and up. -/
theorem testBit_natOfBytes (bs : List Byte) (k : Nat) :
    (natOfBytes bs).testBit k = (bs.getD (k / 8) 0#8).getLsbD (k % 8) := by
  induction bs generalizing k with
  | nil => simp [natOfBytes]
  | cons b bs ih =>
    have hb : b.toNat < 2 ^ 8 := b.isLt
    have e : natOfBytes (b :: bs) = 2 ^ 8 * natOfBytes bs + b.toNat := by simp [natOfBytes]; omega
    rw [e, Nat.testBit_two_pow_mul_add _ hb]
    by_cases h : k < 8
    · have h1 : k / 8 = 0 := by omega
      have h2 : k % 8 = k := by omega
      simp [h, h1, h2, BitVec.getLsbD]
    · have h1 : k / 8 = (k - 8) / 8 + 1 := by omega
      have h2 : (k - 8) % 8 = k % 8 := by omega
      rw [if_neg h, ih, h1, h2, List.getD_cons_succ]

@[simp] theorem length_bytesOfValue (w : Width) (v : U64) : (bytesOfValue w v).length = widthBytes w :=
  length_bytesOfNat _ _

theorem widthBytes_pos (w : Width) : 0 < widthBytes w := by cases w <;> decide

theorem widthBytes_le (w : Width) : widthBytes w ≤ 8 := by cases w <;> decide

theorem pow_256_widthBytes (w : Width) : 256 ^ widthBytes w = 2 ^ widthBits w := by cases w <;> decide

theorem widthBits_le (w : Width) : widthBits w ≤ 64 := by cases w <;> decide

theorem widthBits_ge (w : Width) : 8 ≤ widthBits w := by cases w <;> decide

/-- Reading back the bytes of a value at no greater width gives the value cut to that width. -/
theorem valueOfBytes_take (w1 w2 : Width) (v : U64) (h : widthBytes w2 ≤ widthBytes w1) :
    valueOfBytes ((bytesOfValue w1 v).take (widthBytes w2)) = cut w2 v := by
  apply BitVec.eq_of_toNat_eq
  rw [bytesOfValue, take_bytesOfNat _ _ _ h, valueOfBytes, natOfBytes_bytesOfNat, toNat_cut, pow_256_widthBytes,
    BitVec.toNat_ofNat]
  apply Nat.mod_eq_of_lt
  exact Nat.lt_of_le_of_lt (Nat.mod_le _ _) v.isLt

end Sys2Proof.Machine
end

