-- ==== Sys2Proof/Laws/Decode.lean ====
section
/-! SUPPORT. The fields of an encoded slot and the round trip of one operand position. -/

namespace Sys2Proof

@[simp] theorem mkSlot_opcode (op : Byte) (a b c : Operand) : Slot.opcode (mkSlot op a b c) = op := by
  unfold mkSlot Slot.opcode
  generalize a.payload = p0; generalize b.payload = p1; generalize c.payload = p2
  generalize a.descriptor = d0; generalize b.descriptor = d1; generalize c.descriptor = d2
  apply BitVec.eq_of_getLsbD_eq
  intro i hi
  simp only [BitVec.getLsbD_extractLsb', BitVec.getLsbD_append]
  simp [hi]

@[simp] theorem mkSlot_d0 (op : Byte) (a b c : Operand) : Slot.d0 (mkSlot op a b c) = a.descriptor := by
  unfold mkSlot Slot.d0
  generalize a.payload = p0; generalize b.payload = p1; generalize c.payload = p2
  generalize a.descriptor = d0; generalize b.descriptor = d1; generalize c.descriptor = d2
  apply BitVec.eq_of_getLsbD_eq
  intro i hi
  have e : ∀ n k, k ≤ n → (n + i - k) = (n - k) + i := by omega
  have f : ∀ n k, k ≤ n → ¬ (n + i < k) := by omega
  simp only [BitVec.getLsbD_extractLsb', BitVec.getLsbD_append]
  simp (disch := omega) [hi, e, f]

@[simp] theorem mkSlot_d1 (op : Byte) (a b c : Operand) : Slot.d1 (mkSlot op a b c) = b.descriptor := by
  unfold mkSlot Slot.d1
  generalize a.payload = p0; generalize b.payload = p1; generalize c.payload = p2
  generalize a.descriptor = d0; generalize b.descriptor = d1; generalize c.descriptor = d2
  apply BitVec.eq_of_getLsbD_eq
  intro i hi
  have e : ∀ n k, k ≤ n → (n + i - k) = (n - k) + i := by omega
  have f : ∀ n k, k ≤ n → ¬ (n + i < k) := by omega
  simp only [BitVec.getLsbD_extractLsb', BitVec.getLsbD_append]
  simp (disch := omega) [hi, e, f]

@[simp] theorem mkSlot_d2 (op : Byte) (a b c : Operand) : Slot.d2 (mkSlot op a b c) = c.descriptor := by
  unfold mkSlot Slot.d2
  generalize a.payload = p0; generalize b.payload = p1; generalize c.payload = p2
  generalize a.descriptor = d0; generalize b.descriptor = d1; generalize c.descriptor = d2
  apply BitVec.eq_of_getLsbD_eq
  intro i hi
  have e : ∀ n k, k ≤ n → (n + i - k) = (n - k) + i := by omega
  have f : ∀ n k, k ≤ n → ¬ (n + i < k) := by omega
  simp only [BitVec.getLsbD_extractLsb', BitVec.getLsbD_append]
  simp (disch := omega) [hi, e, f]

@[simp] theorem mkSlot_rsv (op : Byte) (a b c : Operand) : Slot.rsv (mkSlot op a b c) = 0#32 := by
  unfold mkSlot Slot.rsv
  generalize a.payload = p0; generalize b.payload = p1; generalize c.payload = p2
  generalize a.descriptor = d0; generalize b.descriptor = d1; generalize c.descriptor = d2
  apply BitVec.eq_of_getLsbD_eq
  intro i hi
  have e : ∀ n k, k ≤ n → (n + i - k) = (n - k) + i := by omega
  have f : ∀ n k, k ≤ n → ¬ (n + i < k) := by omega
  simp only [BitVec.getLsbD_extractLsb', BitVec.getLsbD_append]
  simp (disch := omega) [hi, e, f]

@[simp] theorem mkSlot_p0 (op : Byte) (a b c : Operand) : Slot.p0 (mkSlot op a b c) = a.payload := by
  unfold mkSlot Slot.p0
  generalize a.payload = p0; generalize b.payload = p1; generalize c.payload = p2
  generalize a.descriptor = d0; generalize b.descriptor = d1; generalize c.descriptor = d2
  apply BitVec.eq_of_getLsbD_eq
  intro i hi
  have e : ∀ n k, k ≤ n → (n + i - k) = (n - k) + i := by omega
  have f : ∀ n k, k ≤ n → ¬ (n + i < k) := by omega
  simp only [BitVec.getLsbD_extractLsb', BitVec.getLsbD_append]
  simp (disch := omega) [hi, e, f]

@[simp] theorem mkSlot_p1 (op : Byte) (a b c : Operand) : Slot.p1 (mkSlot op a b c) = b.payload := by
  unfold mkSlot Slot.p1
  generalize a.payload = p0; generalize b.payload = p1; generalize c.payload = p2
  generalize a.descriptor = d0; generalize b.descriptor = d1; generalize c.descriptor = d2
  apply BitVec.eq_of_getLsbD_eq
  intro i hi
  have e : ∀ n k, k ≤ n → (n + i - k) = (n - k) + i := by omega
  have f : ∀ n k, k ≤ n → ¬ (n + i < k) := by omega
  simp only [BitVec.getLsbD_extractLsb', BitVec.getLsbD_append]
  simp (disch := omega) [hi, e, f]

@[simp] theorem mkSlot_p2 (op : Byte) (a b c : Operand) : Slot.p2 (mkSlot op a b c) = c.payload := by
  unfold mkSlot Slot.p2
  generalize a.payload = p0; generalize b.payload = p1; generalize c.payload = p2
  generalize a.descriptor = d0; generalize b.descriptor = d1; generalize c.descriptor = d2
  apply BitVec.eq_of_getLsbD_eq
  intro i hi
  have e : ∀ n k, k ≤ n → (n + i - k) = (n - k) + i := by omega
  have f : ∀ n k, k ≤ n → ¬ (n + i < k) := by omega
  simp only [BitVec.getLsbD_extractLsb', BitVec.getLsbD_append]
  simp (disch := omega) [hi, e, f]

theorem descriptorByte_zero (w : BitVec 2) (k : BitVec 3) : (descriptorByte w k).extractLsb' 5 3 = 0#3 := by
  revert w k; decide

theorem descriptorByte_kind (w : BitVec 2) (k : BitVec 3) : (descriptorByte w k).extractLsb' 0 3 = k := by
  revert w k; decide

theorem descriptorByte_wcode (w : BitVec 2) (k : BitVec 3) : (descriptorByte w k).extractLsb' 3 2 = w := by
  revert w k; decide

@[simp] theorem ofCode_code (w : Width) : Width.ofCode w.code = w := by cases w <;> rfl

theorem code_ofCode (c : BitVec 2) : (Width.ofCode c).code = c := by revert c; decide

/-- Every operand is read back from its descriptor and payload. -/
theorem decodeOperand_encoded (a : Operand) : decodeOperand a.descriptor a.payload = .ok a := by
  cases a <;>
    simp [decodeOperand, Operand.descriptor, Operand.payload, descriptorByte_zero, descriptorByte_kind,
      descriptorByte_wcode]

/-- A descriptor is made of its three fields. -/
theorem descriptor_of_fields (d : Byte) (h : d.extractLsb' 5 3 = 0#3) :
    d = descriptorByte (d.extractLsb' 3 2) (d.extractLsb' 0 3) := by
  revert d; decide

@[simp] theorem unusedOK_none : unusedOK Operand.none.descriptor Operand.none.payload = true := by decide

end Sys2Proof
end

