-- ==== Sys2Proof/Laws/Memory.lean ====
section
/-! SUPPORT. The store: reading after writing one key, and that every memory operation keeps the canonical form. -/

namespace Sys2Proof.Machine

theorem cell_put_same (a : Nat) (c : List Byte) (m : Memory) : Memory.cell a (Memory.put a c m) = some c := by
  induction m with
  | nil => simp [Memory.put, Memory.cell]
  | cons e m ih =>
    obtain ⟨k, d⟩ := e
    by_cases h1 : a < k
    · simp [Memory.put, Memory.cell, h1]
    · by_cases h2 : a = k
      · subst h2; simp [Memory.put, Memory.cell]
      · have h3 : ¬ k = a := fun e => h2 e.symm
        simp [Memory.put, Memory.cell, h1, h2, h3, ih]

theorem cell_put_ne (a b : Nat) (c : List Byte) (m : Memory) (h : b ≠ a) :
    Memory.cell b (Memory.put a c m) = Memory.cell b m := by
  have hab : ¬ a = b := fun e => h e.symm
  induction m with
  | nil => simp [Memory.put, Memory.cell, hab]
  | cons e m ih =>
    obtain ⟨k, d⟩ := e
    by_cases h1 : a < k
    · simp [Memory.put, Memory.cell, h1, hab]
    · by_cases h2 : a = k
      · subst h2; simp [Memory.put, Memory.cell, hab]
      · simp only [Memory.put, h1, h2, if_false, Memory.cell, ih]

/-- A present cell stays present when any key is written. -/
theorem cell_put_present (a b : Nat) (c : List Byte) (m : Memory) (h : Memory.cell b m ≠ none) :
    Memory.cell b (Memory.put a c m) ≠ none := by
  by_cases e : b = a
  · subst e; simp [cell_put_same]
  · rwa [cell_put_ne a b c m e]

theorem all_put (p : Nat × List Byte → Bool) (a : Nat) (c : List Byte) (m : Memory) (hm : m.all p = true) (ha : p (a, c) = true) :
    (Memory.put a c m).all p = true := by
  induction m with
  | nil => simp [Memory.put, ha]
  | cons e m ih =>
    obtain ⟨k, d⟩ := e
    simp only [List.all_cons, Bool.and_eq_true] at hm
    by_cases h1 : a < k
    · simp [Memory.put, h1, ha, hm.1]; simpa using hm.2
    · by_cases h2 : a = k
      · simp [Memory.put, h2] ; exact ⟨h2 ▸ ha, by simpa using hm.2⟩
      · simp only [Memory.put, h1, h2, if_false, List.all_cons, Bool.and_eq_true]
        exact ⟨hm.1, ih hm.2⟩

/-- Writing a cell of a legal size under a 64-bit key keeps the canonical form. -/
theorem wf_put (a : Nat) (c : List Byte) (m : Memory) (hm : Memory.wf m = true) (ha : a < 2 ^ 64) (hc : cellSizeOK c = true) :
    Memory.wf (Memory.put a c m) = true := by
  induction m with
  | nil => simp [Memory.put, Memory.wf, hc]; exact ha
  | cons e m ih =>
    obtain ⟨k, d⟩ := e
    simp only [Memory.wf, Bool.and_eq_true, decide_eq_true_eq] at hm
    obtain ⟨⟨⟨hk, hd⟩, hall⟩, hm'⟩ := hm
    by_cases h1 : a < k
    · have hall' : m.all (fun e => decide (a < e.1)) = true := by
        simp only [List.all_eq_true, decide_eq_true_eq] at hall ⊢
        intro e he
        exact Nat.lt_trans h1 (hall e he)
      simp only [Memory.put, if_pos h1, Memory.wf, Bool.and_eq_true, decide_eq_true_eq, List.all_cons]
      exact ⟨⟨⟨ha, hc⟩, h1, hall'⟩, ⟨⟨hk, hd⟩, hall⟩, hm'⟩
    · by_cases h2 : a = k
      · subst h2
        simp only [Memory.put, h1, if_false, if_true, Memory.wf, Bool.and_eq_true, decide_eq_true_eq]
        exact ⟨⟨⟨ha, hc⟩, hall⟩, hm'⟩
      · simp only [Memory.put, h1, h2, if_false, Memory.wf, Bool.and_eq_true, decide_eq_true_eq]
        refine ⟨⟨⟨hk, hd⟩, all_put _ a c m hall ?_⟩, ih hm'⟩
        simp only [decide_eq_true_eq]
        omega

theorem cellSizeOK_bytesOfValue (w : Width) (v : U64) : cellSizeOK (bytesOfValue w v) = true := by
  cases w <;> simp [cellSizeOK, widthBytes]

/-- Two canonical stores with the same cells are the same data. -/
theorem eq_of_cells (m n : Memory) (hm : Memory.wf m = true) (hn : Memory.wf n = true)
    (h : ∀ a, Memory.cell a m = Memory.cell a n) : m = n := by
  have below : ∀ (k : Nat) (l : Memory), l.all (fun e => decide (k < e.1)) = true → ∀ a, a ≤ k → Memory.cell a l = none := by
    intro k l hl a ha
    induction l with
    | nil => rfl
    | cons e l ih =>
      obtain ⟨j, d⟩ := e
      simp only [List.all_cons, Bool.and_eq_true, decide_eq_true_eq] at hl
      have : ¬ j = a := by omega
      simp only [Memory.cell, this, if_false]
      exact ih hl.2
  induction m generalizing n with
  | nil =>
    cases n with
    | nil => rfl
    | cons e n => have := h e.1; simp [Memory.cell] at this
  | cons e m ih =>
    obtain ⟨k, c⟩ := e
    cases n with
    | nil => have := h k; simp [Memory.cell] at this
    | cons f n =>
      obtain ⟨j, d⟩ := f
      simp only [Memory.wf, Bool.and_eq_true, decide_eq_true_eq] at hm hn
      have hkj : k = j := by
        rcases Nat.lt_trichotomy k j with hlt | heq | hgt
        · have h1 := h k
          have : ¬ j = k := by omega
          simp only [Memory.cell, if_true, this, if_false] at h1
          rw [below j n hn.1.2 k (by omega)] at h1
          cases h1
        · exact heq
        · have h1 := h j
          have : ¬ k = j := by omega
          simp only [Memory.cell, if_true, this, if_false] at h1
          rw [below k m hm.1.2 j (by omega)] at h1
          cases h1
      subst hkj
      have hcd : c = d := by
        have := h k
        simpa [Memory.cell] using this
      subst hcd
      have hrest : m = n := by
        apply ih n hm.2 hn.2
        intro a
        by_cases e : k = a
        · subst e
          rw [below k m hm.1.2 k (Nat.le_refl k), below k n hn.1.2 k (Nat.le_refl k)]
        · have := h a
          simpa [Memory.cell, e] using this
      rw [hrest]

/-- The one memory operation of the machine keeps the canonical form. -/
theorem memWrite_wf (addr : U64) (w : Width) (v : U64) (s t : State) (h : memWrite addr w v s = .ok t)
    (hm : Memory.wf s.ctx.mem = true) : Memory.wf t.ctx.mem = true := by
  unfold memWrite at h
  split at h
  · cases h
  · cases h
    exact wf_put _ _ _ hm addr.isLt (cellSizeOK_bytesOfValue w v)

theorem reset_memory_wf : Memory.wf State.reset.ctx.mem = true := rfl

end Sys2Proof.Machine
end

