-- ==== Sys2Proof/Laws/State.lean ====
section
/-! SUPPORT. One lemma per field per update of the state, and the small lemmas of single registers and flags, so that no later
proof unfolds a record update. -/

namespace Sys2Proof.Machine

/-! ### setRegs -/

@[simp] theorem setRegs_proc_regs (s : State) (v : Vector U64 16) : (s.setRegs v).proc.regs = v := rfl
@[simp] theorem setRegs_proc_run (s : State) (v : Vector U64 16) : (s.setRegs v).proc.run = s.proc.run := rfl
@[simp] theorem setRegs_proc_phase (s : State) (v : Vector U64 16) : (s.setRegs v).proc.phase = s.proc.phase := rfl
@[simp] theorem setRegs_others (s : State) (v : Vector U64 16) : (s.setRegs v).others = s.others := rfl
@[simp] theorem setRegs_ctx_stream (s : State) (v : Vector U64 16) : (s.setRegs v).ctx.stream = s.ctx.stream := rfl
@[simp] theorem setRegs_ctx_mem (s : State) (v : Vector U64 16) : (s.setRegs v).ctx.mem = s.ctx.mem := rfl
@[simp] theorem setRegs_ctx_streamPoisoned (s : State) (v : Vector U64 16) : (s.setRegs v).ctx.streamPoisoned = s.ctx.streamPoisoned := rfl
@[simp] theorem setRegs_ctx_memPoisoned (s : State) (v : Vector U64 16) : (s.setRegs v).ctx.memPoisoned = s.ctx.memPoisoned := rfl
@[simp] theorem setRegs_callTable (s : State) (v : Vector U64 16) : (s.setRegs v).callTable = s.callTable := rfl
@[simp] theorem setRegs_dumps (s : State) (v : Vector U64 16) : (s.setRegs v).dumps = s.dumps := rfl
@[simp] theorem setRegs_draws (s : State) (v : Vector U64 16) : (s.setRegs v).draws = s.draws := rfl
@[simp] theorem setRegs_ctx (s : State) (v : Vector U64 16) : (s.setRegs v).ctx = s.ctx := rfl
@[simp] theorem setRegs_setRegs (s : State) (u v : Vector U64 16) : (s.setRegs u).setRegs v = s.setRegs v := rfl
@[simp] theorem setRegs_self (s : State) : s.setRegs s.proc.regs = s := rfl

/-! ### setRun -/

@[simp] theorem setRun_proc_regs (s : State) (v : RunState) : (s.setRun v).proc.regs = s.proc.regs := rfl
@[simp] theorem setRun_proc_run (s : State) (v : RunState) : (s.setRun v).proc.run = v := rfl
@[simp] theorem setRun_proc_phase (s : State) (v : RunState) : (s.setRun v).proc.phase = s.proc.phase := rfl
@[simp] theorem setRun_others (s : State) (v : RunState) : (s.setRun v).others = s.others := rfl
@[simp] theorem setRun_ctx_stream (s : State) (v : RunState) : (s.setRun v).ctx.stream = s.ctx.stream := rfl
@[simp] theorem setRun_ctx_mem (s : State) (v : RunState) : (s.setRun v).ctx.mem = s.ctx.mem := rfl
@[simp] theorem setRun_ctx_streamPoisoned (s : State) (v : RunState) : (s.setRun v).ctx.streamPoisoned = s.ctx.streamPoisoned := rfl
@[simp] theorem setRun_ctx_memPoisoned (s : State) (v : RunState) : (s.setRun v).ctx.memPoisoned = s.ctx.memPoisoned := rfl
@[simp] theorem setRun_callTable (s : State) (v : RunState) : (s.setRun v).callTable = s.callTable := rfl
@[simp] theorem setRun_dumps (s : State) (v : RunState) : (s.setRun v).dumps = s.dumps := rfl
@[simp] theorem setRun_draws (s : State) (v : RunState) : (s.setRun v).draws = s.draws := rfl
@[simp] theorem setRun_ctx (s : State) (v : RunState) : (s.setRun v).ctx = s.ctx := rfl
@[simp] theorem setRun_setRun (s : State) (u v : RunState) : (s.setRun u).setRun v = s.setRun v := rfl
@[simp] theorem setRun_self (s : State) : s.setRun s.proc.run = s := rfl
@[simp] theorem setRun_reg (s : State) (v : RunState) (j : Fin 16) : (s.setRun v).reg j = s.reg j := rfl
@[simp] theorem setRun_ic (s : State) (v : RunState) : (s.setRun v).ic = s.ic := rfl
@[simp] theorem setRun_flags (s : State) (v : RunState) : (s.setRun v).flags = s.flags := rfl

/-! ### setPhase -/

@[simp] theorem setPhase_proc_regs (s : State) (v : Phase) : (s.setPhase v).proc.regs = s.proc.regs := rfl
@[simp] theorem setPhase_proc_run (s : State) (v : Phase) : (s.setPhase v).proc.run = s.proc.run := rfl
@[simp] theorem setPhase_proc_phase (s : State) (v : Phase) : (s.setPhase v).proc.phase = v := rfl
@[simp] theorem setPhase_others (s : State) (v : Phase) : (s.setPhase v).others = s.others := rfl
@[simp] theorem setPhase_ctx_stream (s : State) (v : Phase) : (s.setPhase v).ctx.stream = s.ctx.stream := rfl
@[simp] theorem setPhase_ctx_mem (s : State) (v : Phase) : (s.setPhase v).ctx.mem = s.ctx.mem := rfl
@[simp] theorem setPhase_ctx_streamPoisoned (s : State) (v : Phase) : (s.setPhase v).ctx.streamPoisoned = s.ctx.streamPoisoned := rfl
@[simp] theorem setPhase_ctx_memPoisoned (s : State) (v : Phase) : (s.setPhase v).ctx.memPoisoned = s.ctx.memPoisoned := rfl
@[simp] theorem setPhase_callTable (s : State) (v : Phase) : (s.setPhase v).callTable = s.callTable := rfl
@[simp] theorem setPhase_dumps (s : State) (v : Phase) : (s.setPhase v).dumps = s.dumps := rfl
@[simp] theorem setPhase_draws (s : State) (v : Phase) : (s.setPhase v).draws = s.draws := rfl
@[simp] theorem setPhase_ctx (s : State) (v : Phase) : (s.setPhase v).ctx = s.ctx := rfl
@[simp] theorem setPhase_setPhase (s : State) (u v : Phase) : (s.setPhase u).setPhase v = s.setPhase v := rfl
@[simp] theorem setPhase_self (s : State) : s.setPhase s.proc.phase = s := rfl
@[simp] theorem setPhase_reg (s : State) (v : Phase) (j : Fin 16) : (s.setPhase v).reg j = s.reg j := rfl
@[simp] theorem setPhase_ic (s : State) (v : Phase) : (s.setPhase v).ic = s.ic := rfl
@[simp] theorem setPhase_flags (s : State) (v : Phase) : (s.setPhase v).flags = s.flags := rfl

/-! ### setMem -/

@[simp] theorem setMem_proc_regs (s : State) (v : Memory) : (s.setMem v).proc.regs = s.proc.regs := rfl
@[simp] theorem setMem_proc_run (s : State) (v : Memory) : (s.setMem v).proc.run = s.proc.run := rfl
@[simp] theorem setMem_proc_phase (s : State) (v : Memory) : (s.setMem v).proc.phase = s.proc.phase := rfl
@[simp] theorem setMem_others (s : State) (v : Memory) : (s.setMem v).others = s.others := rfl
@[simp] theorem setMem_ctx_stream (s : State) (v : Memory) : (s.setMem v).ctx.stream = s.ctx.stream := rfl
@[simp] theorem setMem_ctx_mem (s : State) (v : Memory) : (s.setMem v).ctx.mem = v := rfl
@[simp] theorem setMem_ctx_streamPoisoned (s : State) (v : Memory) : (s.setMem v).ctx.streamPoisoned = s.ctx.streamPoisoned := rfl
@[simp] theorem setMem_ctx_memPoisoned (s : State) (v : Memory) : (s.setMem v).ctx.memPoisoned = s.ctx.memPoisoned := rfl
@[simp] theorem setMem_callTable (s : State) (v : Memory) : (s.setMem v).callTable = s.callTable := rfl
@[simp] theorem setMem_dumps (s : State) (v : Memory) : (s.setMem v).dumps = s.dumps := rfl
@[simp] theorem setMem_draws (s : State) (v : Memory) : (s.setMem v).draws = s.draws := rfl
@[simp] theorem setMem_proc (s : State) (v : Memory) : (s.setMem v).proc = s.proc := rfl
@[simp] theorem setMem_setMem (s : State) (u v : Memory) : (s.setMem u).setMem v = s.setMem v := rfl
@[simp] theorem setMem_self (s : State) : s.setMem s.ctx.mem = s := rfl
@[simp] theorem setMem_reg (s : State) (v : Memory) (j : Fin 16) : (s.setMem v).reg j = s.reg j := rfl
@[simp] theorem setMem_ic (s : State) (v : Memory) : (s.setMem v).ic = s.ic := rfl
@[simp] theorem setMem_flags (s : State) (v : Memory) : (s.setMem v).flags = s.flags := rfl

/-! ### setStream -/

@[simp] theorem setStream_proc_regs (s : State) (v : List Slot) : (s.setStream v).proc.regs = s.proc.regs := rfl
@[simp] theorem setStream_proc_run (s : State) (v : List Slot) : (s.setStream v).proc.run = s.proc.run := rfl
@[simp] theorem setStream_proc_phase (s : State) (v : List Slot) : (s.setStream v).proc.phase = s.proc.phase := rfl
@[simp] theorem setStream_others (s : State) (v : List Slot) : (s.setStream v).others = s.others := rfl
@[simp] theorem setStream_ctx_stream (s : State) (v : List Slot) : (s.setStream v).ctx.stream = v := rfl
@[simp] theorem setStream_ctx_mem (s : State) (v : List Slot) : (s.setStream v).ctx.mem = s.ctx.mem := rfl
@[simp] theorem setStream_ctx_streamPoisoned (s : State) (v : List Slot) : (s.setStream v).ctx.streamPoisoned = s.ctx.streamPoisoned := rfl
@[simp] theorem setStream_ctx_memPoisoned (s : State) (v : List Slot) : (s.setStream v).ctx.memPoisoned = s.ctx.memPoisoned := rfl
@[simp] theorem setStream_callTable (s : State) (v : List Slot) : (s.setStream v).callTable = s.callTable := rfl
@[simp] theorem setStream_dumps (s : State) (v : List Slot) : (s.setStream v).dumps = s.dumps := rfl
@[simp] theorem setStream_draws (s : State) (v : List Slot) : (s.setStream v).draws = s.draws := rfl
@[simp] theorem setStream_proc (s : State) (v : List Slot) : (s.setStream v).proc = s.proc := rfl
@[simp] theorem setStream_setStream (s : State) (u v : List Slot) : (s.setStream u).setStream v = s.setStream v := rfl
@[simp] theorem setStream_self (s : State) : s.setStream s.ctx.stream = s := rfl
@[simp] theorem setStream_reg (s : State) (v : List Slot) (j : Fin 16) : (s.setStream v).reg j = s.reg j := rfl
@[simp] theorem setStream_ic (s : State) (v : List Slot) : (s.setStream v).ic = s.ic := rfl
@[simp] theorem setStream_flags (s : State) (v : List Slot) : (s.setStream v).flags = s.flags := rfl

/-! ### setMemPoisoned -/

@[simp] theorem setMemPoisoned_proc_regs (s : State) (v : Bool) : (s.setMemPoisoned v).proc.regs = s.proc.regs := rfl
@[simp] theorem setMemPoisoned_proc_run (s : State) (v : Bool) : (s.setMemPoisoned v).proc.run = s.proc.run := rfl
@[simp] theorem setMemPoisoned_proc_phase (s : State) (v : Bool) : (s.setMemPoisoned v).proc.phase = s.proc.phase := rfl
@[simp] theorem setMemPoisoned_others (s : State) (v : Bool) : (s.setMemPoisoned v).others = s.others := rfl
@[simp] theorem setMemPoisoned_ctx_stream (s : State) (v : Bool) : (s.setMemPoisoned v).ctx.stream = s.ctx.stream := rfl
@[simp] theorem setMemPoisoned_ctx_mem (s : State) (v : Bool) : (s.setMemPoisoned v).ctx.mem = s.ctx.mem := rfl
@[simp] theorem setMemPoisoned_ctx_streamPoisoned (s : State) (v : Bool) : (s.setMemPoisoned v).ctx.streamPoisoned = s.ctx.streamPoisoned := rfl
@[simp] theorem setMemPoisoned_ctx_memPoisoned (s : State) (v : Bool) : (s.setMemPoisoned v).ctx.memPoisoned = v := rfl
@[simp] theorem setMemPoisoned_callTable (s : State) (v : Bool) : (s.setMemPoisoned v).callTable = s.callTable := rfl
@[simp] theorem setMemPoisoned_dumps (s : State) (v : Bool) : (s.setMemPoisoned v).dumps = s.dumps := rfl
@[simp] theorem setMemPoisoned_draws (s : State) (v : Bool) : (s.setMemPoisoned v).draws = s.draws := rfl
@[simp] theorem setMemPoisoned_proc (s : State) (v : Bool) : (s.setMemPoisoned v).proc = s.proc := rfl
@[simp] theorem setMemPoisoned_setMemPoisoned (s : State) (u v : Bool) : (s.setMemPoisoned u).setMemPoisoned v = s.setMemPoisoned v := rfl
@[simp] theorem setMemPoisoned_self (s : State) : s.setMemPoisoned s.ctx.memPoisoned = s := rfl
@[simp] theorem setMemPoisoned_reg (s : State) (v : Bool) (j : Fin 16) : (s.setMemPoisoned v).reg j = s.reg j := rfl
@[simp] theorem setMemPoisoned_ic (s : State) (v : Bool) : (s.setMemPoisoned v).ic = s.ic := rfl
@[simp] theorem setMemPoisoned_flags (s : State) (v : Bool) : (s.setMemPoisoned v).flags = s.flags := rfl

/-! ### setStreamPoisoned -/

@[simp] theorem setStreamPoisoned_proc_regs (s : State) (v : Bool) : (s.setStreamPoisoned v).proc.regs = s.proc.regs := rfl
@[simp] theorem setStreamPoisoned_proc_run (s : State) (v : Bool) : (s.setStreamPoisoned v).proc.run = s.proc.run := rfl
@[simp] theorem setStreamPoisoned_proc_phase (s : State) (v : Bool) : (s.setStreamPoisoned v).proc.phase = s.proc.phase := rfl
@[simp] theorem setStreamPoisoned_others (s : State) (v : Bool) : (s.setStreamPoisoned v).others = s.others := rfl
@[simp] theorem setStreamPoisoned_ctx_stream (s : State) (v : Bool) : (s.setStreamPoisoned v).ctx.stream = s.ctx.stream := rfl
@[simp] theorem setStreamPoisoned_ctx_mem (s : State) (v : Bool) : (s.setStreamPoisoned v).ctx.mem = s.ctx.mem := rfl
@[simp] theorem setStreamPoisoned_ctx_streamPoisoned (s : State) (v : Bool) : (s.setStreamPoisoned v).ctx.streamPoisoned = v := rfl
@[simp] theorem setStreamPoisoned_ctx_memPoisoned (s : State) (v : Bool) : (s.setStreamPoisoned v).ctx.memPoisoned = s.ctx.memPoisoned := rfl
@[simp] theorem setStreamPoisoned_callTable (s : State) (v : Bool) : (s.setStreamPoisoned v).callTable = s.callTable := rfl
@[simp] theorem setStreamPoisoned_dumps (s : State) (v : Bool) : (s.setStreamPoisoned v).dumps = s.dumps := rfl
@[simp] theorem setStreamPoisoned_draws (s : State) (v : Bool) : (s.setStreamPoisoned v).draws = s.draws := rfl
@[simp] theorem setStreamPoisoned_proc (s : State) (v : Bool) : (s.setStreamPoisoned v).proc = s.proc := rfl
@[simp] theorem setStreamPoisoned_setStreamPoisoned (s : State) (u v : Bool) : (s.setStreamPoisoned u).setStreamPoisoned v = s.setStreamPoisoned v := rfl
@[simp] theorem setStreamPoisoned_self (s : State) : s.setStreamPoisoned s.ctx.streamPoisoned = s := rfl
@[simp] theorem setStreamPoisoned_reg (s : State) (v : Bool) (j : Fin 16) : (s.setStreamPoisoned v).reg j = s.reg j := rfl
@[simp] theorem setStreamPoisoned_ic (s : State) (v : Bool) : (s.setStreamPoisoned v).ic = s.ic := rfl
@[simp] theorem setStreamPoisoned_flags (s : State) (v : Bool) : (s.setStreamPoisoned v).flags = s.flags := rfl

/-! ### setDumps -/

@[simp] theorem setDumps_proc_regs (s : State) (v : List (Vector U64 16)) : (s.setDumps v).proc.regs = s.proc.regs := rfl
@[simp] theorem setDumps_proc_run (s : State) (v : List (Vector U64 16)) : (s.setDumps v).proc.run = s.proc.run := rfl
@[simp] theorem setDumps_proc_phase (s : State) (v : List (Vector U64 16)) : (s.setDumps v).proc.phase = s.proc.phase := rfl
@[simp] theorem setDumps_others (s : State) (v : List (Vector U64 16)) : (s.setDumps v).others = s.others := rfl
@[simp] theorem setDumps_ctx_stream (s : State) (v : List (Vector U64 16)) : (s.setDumps v).ctx.stream = s.ctx.stream := rfl
@[simp] theorem setDumps_ctx_mem (s : State) (v : List (Vector U64 16)) : (s.setDumps v).ctx.mem = s.ctx.mem := rfl
@[simp] theorem setDumps_ctx_streamPoisoned (s : State) (v : List (Vector U64 16)) : (s.setDumps v).ctx.streamPoisoned = s.ctx.streamPoisoned := rfl
@[simp] theorem setDumps_ctx_memPoisoned (s : State) (v : List (Vector U64 16)) : (s.setDumps v).ctx.memPoisoned = s.ctx.memPoisoned := rfl
@[simp] theorem setDumps_callTable (s : State) (v : List (Vector U64 16)) : (s.setDumps v).callTable = s.callTable := rfl
@[simp] theorem setDumps_dumps (s : State) (v : List (Vector U64 16)) : (s.setDumps v).dumps = v := rfl
@[simp] theorem setDumps_draws (s : State) (v : List (Vector U64 16)) : (s.setDumps v).draws = s.draws := rfl
@[simp] theorem setDumps_proc (s : State) (v : List (Vector U64 16)) : (s.setDumps v).proc = s.proc := rfl
@[simp] theorem setDumps_ctx (s : State) (v : List (Vector U64 16)) : (s.setDumps v).ctx = s.ctx := rfl
@[simp] theorem setDumps_setDumps (s : State) (u v : List (Vector U64 16)) : (s.setDumps u).setDumps v = s.setDumps v := rfl
@[simp] theorem setDumps_self (s : State) : s.setDumps s.dumps = s := rfl
@[simp] theorem setDumps_reg (s : State) (v : List (Vector U64 16)) (j : Fin 16) : (s.setDumps v).reg j = s.reg j := rfl
@[simp] theorem setDumps_ic (s : State) (v : List (Vector U64 16)) : (s.setDumps v).ic = s.ic := rfl
@[simp] theorem setDumps_flags (s : State) (v : List (Vector U64 16)) : (s.setDumps v).flags = s.flags := rfl

/-! ### setDraws -/

@[simp] theorem setDraws_proc_regs (s : State) (v : Nat) : (s.setDraws v).proc.regs = s.proc.regs := rfl
@[simp] theorem setDraws_proc_run (s : State) (v : Nat) : (s.setDraws v).proc.run = s.proc.run := rfl
@[simp] theorem setDraws_proc_phase (s : State) (v : Nat) : (s.setDraws v).proc.phase = s.proc.phase := rfl
@[simp] theorem setDraws_others (s : State) (v : Nat) : (s.setDraws v).others = s.others := rfl
@[simp] theorem setDraws_ctx_stream (s : State) (v : Nat) : (s.setDraws v).ctx.stream = s.ctx.stream := rfl
@[simp] theorem setDraws_ctx_mem (s : State) (v : Nat) : (s.setDraws v).ctx.mem = s.ctx.mem := rfl
@[simp] theorem setDraws_ctx_streamPoisoned (s : State) (v : Nat) : (s.setDraws v).ctx.streamPoisoned = s.ctx.streamPoisoned := rfl
@[simp] theorem setDraws_ctx_memPoisoned (s : State) (v : Nat) : (s.setDraws v).ctx.memPoisoned = s.ctx.memPoisoned := rfl
@[simp] theorem setDraws_callTable (s : State) (v : Nat) : (s.setDraws v).callTable = s.callTable := rfl
@[simp] theorem setDraws_dumps (s : State) (v : Nat) : (s.setDraws v).dumps = s.dumps := rfl
@[simp] theorem setDraws_draws (s : State) (v : Nat) : (s.setDraws v).draws = v := rfl
@[simp] theorem setDraws_proc (s : State) (v : Nat) : (s.setDraws v).proc = s.proc := rfl
@[simp] theorem setDraws_ctx (s : State) (v : Nat) : (s.setDraws v).ctx = s.ctx := rfl
@[simp] theorem setDraws_setDraws (s : State) (u v : Nat) : (s.setDraws u).setDraws v = s.setDraws v := rfl
@[simp] theorem setDraws_self (s : State) : s.setDraws s.draws = s := rfl
@[simp] theorem setDraws_reg (s : State) (v : Nat) (j : Fin 16) : (s.setDraws v).reg j = s.reg j := rfl
@[simp] theorem setDraws_ic (s : State) (v : Nat) : (s.setDraws v).ic = s.ic := rfl
@[simp] theorem setDraws_flags (s : State) (v : Nat) : (s.setDraws v).flags = s.flags := rfl

/-! ### setReg, setIC, setFlag: only the register bank changes -/

@[simp] theorem reg_setReg_same (s : State) (i : Fin 16) (v : U64) : (s.setReg i v).reg i = v := by
  simp [State.reg, State.setReg]

theorem reg_setReg_ne (s : State) (i j : Fin 16) (v : U64) (h : j ≠ i) : (s.setReg i v).reg j = s.reg j := by
  have h' : i.val ≠ j.val := fun e => h (Fin.ext e.symm)
  simp [State.reg, State.setReg, h']

theorem reg_setReg (s : State) (i j : Fin 16) (v : U64) :
    (s.setReg i v).reg j = if j = i then v else s.reg j := by
  by_cases h : j = i
  · subst h; simp
  · simp [h, reg_setReg_ne]

@[simp] theorem setReg_setReg (s : State) (i : Fin 16) (u v : U64) : (s.setReg i u).setReg i v = s.setReg i v := by
  simp [State.setReg]

@[simp] theorem setReg_self (s : State) (i : Fin 16) : s.setReg i (s.reg i) = s := by
  simp [State.setReg, State.reg]

@[simp] theorem setReg_proc_run (s : State) (i : Fin 16) (v : U64) : (s.setReg i v).proc.run = s.proc.run := rfl
@[simp] theorem setReg_proc_phase (s : State) (i : Fin 16) (v : U64) : (s.setReg i v).proc.phase = s.proc.phase := rfl
@[simp] theorem setReg_others (s : State) (i : Fin 16) (v : U64) : (s.setReg i v).others = s.others := rfl
@[simp] theorem setReg_ctx (s : State) (i : Fin 16) (v : U64) : (s.setReg i v).ctx = s.ctx := rfl
@[simp] theorem setReg_callTable (s : State) (i : Fin 16) (v : U64) : (s.setReg i v).callTable = s.callTable := rfl
@[simp] theorem setReg_dumps (s : State) (i : Fin 16) (v : U64) : (s.setReg i v).dumps = s.dumps := rfl
@[simp] theorem setReg_draws (s : State) (i : Fin 16) (v : U64) : (s.setReg i v).draws = s.draws := rfl
theorem setReg_eq_setRegs (s : State) (i : Fin 16) (v : U64) : s.setReg i v = s.setRegs (s.setReg i v).proc.regs := rfl

@[simp] theorem setIC_proc_run (s : State) (v : U64) : (s.setIC v).proc.run = s.proc.run := rfl
@[simp] theorem setIC_proc_phase (s : State) (v : U64) : (s.setIC v).proc.phase = s.proc.phase := rfl
@[simp] theorem setIC_others (s : State) (v : U64) : (s.setIC v).others = s.others := rfl
@[simp] theorem setIC_ctx (s : State) (v : U64) : (s.setIC v).ctx = s.ctx := rfl
@[simp] theorem setIC_callTable (s : State) (v : U64) : (s.setIC v).callTable = s.callTable := rfl
@[simp] theorem setIC_dumps (s : State) (v : U64) : (s.setIC v).dumps = s.dumps := rfl
@[simp] theorem setIC_draws (s : State) (v : U64) : (s.setIC v).draws = s.draws := rfl
theorem setIC_eq_setRegs (s : State) (v : U64) : s.setIC v = s.setRegs (s.setIC v).proc.regs := rfl

@[simp] theorem setFlag_proc_run (s : State) (k : Nat) (b : Bool) : (s.setFlag k b).proc.run = s.proc.run := rfl
@[simp] theorem setFlag_proc_phase (s : State) (k : Nat) (b : Bool) : (s.setFlag k b).proc.phase = s.proc.phase := rfl
@[simp] theorem setFlag_others (s : State) (k : Nat) (b : Bool) : (s.setFlag k b).others = s.others := rfl
@[simp] theorem setFlag_ctx (s : State) (k : Nat) (b : Bool) : (s.setFlag k b).ctx = s.ctx := rfl
@[simp] theorem setFlag_callTable (s : State) (k : Nat) (b : Bool) : (s.setFlag k b).callTable = s.callTable := rfl
@[simp] theorem setFlag_dumps (s : State) (k : Nat) (b : Bool) : (s.setFlag k b).dumps = s.dumps := rfl
@[simp] theorem setFlag_draws (s : State) (k : Nat) (b : Bool) : (s.setFlag k b).draws = s.draws := rfl
theorem setFlag_eq_setRegs (s : State) (k : Nat) (b : Bool) : s.setFlag k b = s.setRegs (s.setFlag k b).proc.regs := rfl

@[simp] theorem setZ_proc_run (s : State) (b : Bool) : (s.setZ b).proc.run = s.proc.run := rfl
@[simp] theorem setZ_proc_phase (s : State) (b : Bool) : (s.setZ b).proc.phase = s.proc.phase := rfl
@[simp] theorem setZ_others (s : State) (b : Bool) : (s.setZ b).others = s.others := rfl
@[simp] theorem setZ_ctx (s : State) (b : Bool) : (s.setZ b).ctx = s.ctx := rfl
@[simp] theorem setZ_callTable (s : State) (b : Bool) : (s.setZ b).callTable = s.callTable := rfl
@[simp] theorem setZ_dumps (s : State) (b : Bool) : (s.setZ b).dumps = s.dumps := rfl
@[simp] theorem setZ_draws (s : State) (b : Bool) : (s.setZ b).draws = s.draws := rfl
theorem setZ_eq_setRegs (s : State) (b : Bool) : s.setZ b = s.setRegs (s.setZ b).proc.regs := rfl

@[simp] theorem setG_proc_run (s : State) (b : Bool) : (s.setG b).proc.run = s.proc.run := rfl
@[simp] theorem setG_proc_phase (s : State) (b : Bool) : (s.setG b).proc.phase = s.proc.phase := rfl
@[simp] theorem setG_others (s : State) (b : Bool) : (s.setG b).others = s.others := rfl
@[simp] theorem setG_ctx (s : State) (b : Bool) : (s.setG b).ctx = s.ctx := rfl
@[simp] theorem setG_callTable (s : State) (b : Bool) : (s.setG b).callTable = s.callTable := rfl
@[simp] theorem setG_dumps (s : State) (b : Bool) : (s.setG b).dumps = s.dumps := rfl
@[simp] theorem setG_draws (s : State) (b : Bool) : (s.setG b).draws = s.draws := rfl
theorem setG_eq_setRegs (s : State) (b : Bool) : s.setG b = s.setRegs (s.setG b).proc.regs := rfl

@[simp] theorem setV_proc_run (s : State) (b : Bool) : (s.setV b).proc.run = s.proc.run := rfl
@[simp] theorem setV_proc_phase (s : State) (b : Bool) : (s.setV b).proc.phase = s.proc.phase := rfl
@[simp] theorem setV_others (s : State) (b : Bool) : (s.setV b).others = s.others := rfl
@[simp] theorem setV_ctx (s : State) (b : Bool) : (s.setV b).ctx = s.ctx := rfl
@[simp] theorem setV_callTable (s : State) (b : Bool) : (s.setV b).callTable = s.callTable := rfl
@[simp] theorem setV_dumps (s : State) (b : Bool) : (s.setV b).dumps = s.dumps := rfl
@[simp] theorem setV_draws (s : State) (b : Bool) : (s.setV b).draws = s.draws := rfl
theorem setV_eq_setRegs (s : State) (b : Bool) : s.setV b = s.setRegs (s.setV b).proc.regs := rfl

/-! ### The instruction counter and the flags as registers -/

theorem ic_eq_reg (s : State) : s.ic = s.reg 15 := rfl

@[simp] theorem setIC_ic (s : State) (v : U64) : (s.setIC v).ic = v := reg_setReg_same s 15 v

theorem setIC_reg_ne (s : State) (v : U64) (j : Fin 16) (h : j ≠ 15) : (s.setIC v).reg j = s.reg j :=
  reg_setReg_ne s 15 j v h

@[simp] theorem setIC_flags (s : State) (v : U64) : (s.setIC v).flags = s.flags :=
  reg_setReg_ne s 15 14 v (by decide)

@[simp] theorem setFlag_flags (s : State) (k : Nat) (b : Bool) : (s.setFlag k b).flags = setBit s.flags k b :=
  reg_setReg_same s 14 _

theorem setFlag_reg_ne (s : State) (k : Nat) (b : Bool) (j : Fin 16) (h : j ≠ 14) :
    (s.setFlag k b).reg j = s.reg j := reg_setReg_ne s 14 j _ h

@[simp] theorem setFlag_ic (s : State) (k : Nat) (b : Bool) : (s.setFlag k b).ic = s.ic :=
  reg_setReg_ne s 14 15 _ (by decide)

@[simp] theorem setZ_ic (s : State) (b : Bool) : (s.setZ b).ic = s.ic := setFlag_ic s zBit b
@[simp] theorem setG_ic (s : State) (b : Bool) : (s.setG b).ic = s.ic := setFlag_ic s gBit b
@[simp] theorem setV_ic (s : State) (b : Bool) : (s.setV b).ic = s.ic := setFlag_ic s vBit b
@[simp] theorem setZ_flags (s : State) (b : Bool) : (s.setZ b).flags = setBit s.flags zBit b := setFlag_flags s zBit b
@[simp] theorem setG_flags (s : State) (b : Bool) : (s.setG b).flags = setBit s.flags gBit b := setFlag_flags s gBit b
@[simp] theorem setV_flags (s : State) (b : Bool) : (s.setV b).flags = setBit s.flags vBit b := setFlag_flags s vBit b

/-- What `setBit` does to every bit of a 64-bit value. -/
theorem getLsbD_setBit (v : U64) (k j : Nat) (b : Bool) (hk : k < 64) :
    (setBit v k b).getLsbD j = if j = k then b else v.getLsbD j := by
  by_cases hj : j < 64
  · have e : (1#64 <<< k).getLsbD j = decide (j = k) := by
      rw [BitVec.getLsbD_shiftLeft]
      by_cases h : j = k
      · subst h; simp [hj]
      · by_cases h2 : j < k
        · simp [h, h2]
        · have : j - k ≠ 0 := by omega
          simp [h, hj, this]
    unfold setBit
    generalize 1#64 <<< k = m at e
    cases b <;> by_cases h : j = k <;> simp_all
  · have h : j ≠ k := by omega
    have : 64 ≤ j := by omega
    simp [h, BitVec.getLsbD_of_ge, this]

end Sys2Proof.Machine
end

