-- ==== Sys2Proof/Laws/Ops.lean ====
section
/-! SUPPORT. For each shared operation one lemma that says everything it can do; claims cite these and do not unfold it. -/

namespace Sys2Proof.Machine

/-! ### Registers and memory -/

theorem regRead_in (w : Width) (i : U64) (s : State) (h : i.toNat < 16) :
    regRead w i s = .ok (cut w (s.reg ⟨i.toNat, h⟩)) := by simp [regRead, h]

theorem regRead_out (w : Width) (i : U64) (s : State) (h : 16 ≤ i.toNat) :
    regRead w i s = .error .registerIndexOutOfBounds := by simp [regRead, Nat.not_lt.mpr h]

theorem regWrite_in (w : Width) (i v : U64) (s : State) (h : i.toNat < 16) :
    regWrite w i v s = .ok (s.setReg ⟨i.toNat, h⟩ (insertLow w (s.reg ⟨i.toNat, h⟩) v)) := by simp [regWrite, h]

theorem regWrite_out (w : Width) (i v : U64) (s : State) (h : 16 ≤ i.toNat) :
    regWrite w i v s = .error .registerIndexOutOfBounds := by simp [regWrite, Nat.not_lt.mpr h]

theorem regRead_cases (w : Width) (i : U64) (s : State) :
    (∃ h : i.toNat < 16, regRead w i s = .ok (cut w (s.reg ⟨i.toNat, h⟩))) ∨
      regRead w i s = .error .registerIndexOutOfBounds := by
  by_cases h : i.toNat < 16
  · exact .inl ⟨h, regRead_in w i s h⟩
  · exact .inr (regRead_out w i s (Nat.le_of_not_lt h))

theorem regWrite_cases (w : Width) (i v : U64) (s : State) :
    (∃ h : i.toNat < 16, regWrite w i v s = .ok (s.setReg ⟨i.toNat, h⟩ (insertLow w (s.reg ⟨i.toNat, h⟩) v))) ∨
      regWrite w i v s = .error .registerIndexOutOfBounds := by
  by_cases h : i.toNat < 16
  · exact .inl ⟨h, regWrite_in w i v s h⟩
  · exact .inr (regWrite_out w i v s (Nat.le_of_not_lt h))

theorem memRead_errors (addr : U64) (w : Width) (s : State) (k : ErrKind) (h : memRead addr w s = .error k) :
    k = .memoryPoisoned ∨ k = .addressNotPresent ∨ k = .widthMismatch := by
  unfold memRead at h
  split at h
  · cases h; exact .inl rfl
  · split at h
    · cases h; exact .inr (.inl rfl)
    · split at h
      · cases h; exact .inr (.inr rfl)
      · cases h

theorem memWrite_cases (addr : U64) (w : Width) (v : U64) (s : State) :
    (s.ctx.memPoisoned = true ∧ memWrite addr w v s = .error .memoryPoisoned) ∨
      (s.ctx.memPoisoned = false ∧
        memWrite addr w v s = .ok (s.setMem (Memory.put addr.toNat (bytesOfValue w v) s.ctx.mem))) := by
  cases h : s.ctx.memPoisoned
  · exact .inr ⟨rfl, by simp [memWrite, h]⟩
  · exact .inl ⟨rfl, by simp [memWrite, h]⟩

/-! ### Operands -/

theorem readOperand_memory (w : Width) (a : U64) (s : State) : readOperand (.memory w a) s = memRead a w s := rfl

theorem readOperand_memoryRegister_in (w : Width) (i : U64) (s : State) (h : i.toNat < 16) :
    readOperand (.memoryRegister w i) s = memRead (s.reg ⟨i.toNat, h⟩) w s := by
  simp [readOperand, operandAddress, regRead_in _ _ _ h]

theorem readOperand_memoryRegister_out (w : Width) (i : U64) (s : State) (h : 16 ≤ i.toNat) :
    readOperand (.memoryRegister w i) s = .error .registerIndexOutOfBounds := by
  simp [readOperand, operandAddress, regRead_out _ _ _ h]

/-- Everything a write through an operand can do: one register, or one cell, or nothing and an error. -/
theorem writeOperand_cases (op : Operand) (v : U64) (s : State) :
    (writable op = false ∧ writeOperand op v s = .error .invalidOperand) ∨
    (∃ w i, ∃ h : i.toNat < 16, op = .register w i ∧
      writeOperand op v s = .ok (s.setReg ⟨i.toNat, h⟩ (insertLow w (s.reg ⟨i.toNat, h⟩) v))) ∨
    (∃ a, operandAddress op s = .ok a ∧ s.ctx.memPoisoned = false ∧
      writeOperand op v s = .ok (s.setMem (Memory.put a.toNat (bytesOfValue (operandWidth op) v) s.ctx.mem))) ∨
    (writable op = true ∧ (writeOperand op v s = .error .registerIndexOutOfBounds ∨
      (s.ctx.memPoisoned = true ∧ writeOperand op v s = .error .memoryPoisoned))) := by
  cases op with
  | none => exact .inl ⟨rfl, rfl⟩
  | immediate _ => exact .inl ⟨rfl, rfl⟩
  | register w i =>
    rcases regWrite_cases w i v s with ⟨h, e⟩ | e
    · exact .inr (.inl ⟨w, i, h, rfl, e⟩)
    · exact .inr (.inr (.inr ⟨rfl, .inl e⟩))
  | memory w a =>
    rcases memWrite_cases a w v s with ⟨h, e⟩ | ⟨h, e⟩
    · exact .inr (.inr (.inr ⟨rfl, .inr ⟨h, e⟩⟩))
    · exact .inr (.inr (.inl ⟨a, rfl, h, e⟩))
  | memoryRegister w i =>
    rcases regRead_cases .qword i s with ⟨hi, er⟩ | er
    · rcases memWrite_cases (cut .qword (s.reg ⟨i.toNat, hi⟩)) w v s with ⟨h, e⟩ | ⟨h, e⟩
      · exact .inr (.inr (.inr ⟨rfl, .inr ⟨h, by simp only [writeOperand, operandAddress, er, e]⟩⟩))
      · exact .inr (.inr (.inl ⟨_, er, h, by simp only [writeOperand, operandAddress, er, e]; rfl⟩))
    · exact .inr (.inr (.inr ⟨rfl, .inl (by simp only [writeOperand, operandAddress, er])⟩))

/-! ### The lines of an instruction -/

theorem shaped_ok {src dst : List Operand} {s : State} {body : Result}
    (h : (src.all readable && dst.all writable) = true) : shaped src dst s body = body := by simp [shaped, h]

theorem shaped_bad {src dst : List Operand} {s : State} {body : Result}
    (h : (src.all readable && dst.all writable) = false) :
    shaped src dst s body = .next (s.setRun (.faulted .invalidOperand)) := by simp [shaped, h, abort]

theorem resolve_ok {op : Operand} {s : State} {v : U64} (rest : U64 → Result) (h : readOperand op s = .ok v) :
    resolve op s rest = rest v := by simp [resolve, h]

theorem resolve_error {op : Operand} {s : State} {k : ErrKind} (rest : U64 → Result) (h : readOperand op s = .error k) :
    resolve op s rest = .next (s.setRun (.faulted k)) := by simp [resolve, h, abort]

theorem store_ok {op : Operand} {v : U64} {s t : State} (h : writeOperand op v s = .ok t) :
    store op v s = .next (t.setIC (t.ic + 1)) := by simp [store, h, advance]

theorem store_error {op : Operand} {v : U64} {s : State} {k : ErrKind} (h : writeOperand op v s = .error k) :
    store op v s = .next (s.setRun (.faulted k)) := by simp [store, h, abort]

/-- An operand that yields a value is a readable one. -/
theorem readable_of_read {op : Operand} {s : State} {v : U64} (h : readOperand op s = .ok v) : readable op = true := by
  cases op <;> first | rfl | cases h

/-- An operand that can be written through is a writable one. -/
theorem writable_of_write {op : Operand} {v : U64} {s t : State} (h : writeOperand op v s = .ok t) : writable op = true := by
  cases op <;> first | rfl | cases h

/-- The shape vocabulary of WellFormed.lean and that of the machine agree. -/
theorem readable_eq (op : Operand) : readable op = op.sourceShape := by cases op <;> rfl

theorem writable_eq (op : Operand) : writable op = op.destShape := by cases op <;> rfl

/-! ### Host callbacks -/

/-- One access of a callback writes at most one register or one cell, or sets a poison flag. -/
theorem callbackAct_cases (a : CallbackAct) (s : State) :
    (callbackAct a s).2 = s ∨
    (∃ i : Fin 16, ∃ v, (callbackAct a s).2 = s.setReg i v) ∨
    (∃ addr : U64, ∃ w v, (callbackAct a s).2 = s.setMem (Memory.put addr.toNat (bytesOfValue w v) s.ctx.mem)) ∨
    (callbackAct a s).2 = s.setMemPoisoned true ∨ (callbackAct a s).2 = s.setStreamPoisoned true := by
  cases a with
  | regRead w i => exact .inl (by simp only [callbackAct, answerRead]; split <;> rfl)
  | memRead addr w => exact .inl (by simp only [callbackAct, answerRead]; split <;> rfl)
  | regWrite w i v =>
    rcases regWrite_cases w i v s with ⟨h, e⟩ | e
    · exact .inr (.inl ⟨_, _, by simp only [callbackAct, e]; rfl⟩)
    · exact .inl (by simp only [callbackAct, e]; rfl)
  | memWrite addr w v =>
    rcases memWrite_cases addr w v s with ⟨_, e⟩ | ⟨_, e⟩
    · exact .inl (by simp only [callbackAct, e]; rfl)
    · exact .inr (.inr (.inl ⟨addr, w, v, by simp only [callbackAct, e]; rfl⟩))
  | poisonMemory => exact .inr (.inr (.inr (.inl rfl)))
  | poisonStream => exact .inr (.inr (.inr (.inr rfl)))

/-- What every access of a callback keeps, all of its accesses together keep. -/
theorem callbackRun_keep (P : State → Prop) (h : ∀ a s, P s → P (callbackAct a s).2) (c : CallbackTree) (s : State) (hs : P s) :
    P (callbackRun c s).2 := by
  induction c generalizing s with
  | ret result => exact hs
  | act a next ih => exact ih _ _ (h a s hs)

@[simp] theorem callbackAfter_nil (c : CallbackTree) : callbackAfter c [] = c := rfl

/-- One more answer is one step further into the callback. -/
theorem callbackAfter_snoc (c : CallbackTree) (answers : List CallbackAnswer) (x : CallbackAnswer) :
    callbackAfter c (answers ++ [x]) = callbackNext (callbackAfter c answers) x := by simp [callbackAfter]

end Sys2Proof.Machine
end

