-- ==== Sys2Proof/Laws/Exec.lean ====
section
/-! SUPPORT. What an instruction can do, said once: the outcomes of every instruction that runs no host callback (`Ran`), and what
an access of a callback keeps (`ActKeeps`). -/

namespace Sys2Proof.Machine

/-! ### Operands -/

theorem readable_of_ne_none {op : Operand} (h : op ≠ .none) : readable op = true := by cases op <;> simp_all [readable]

theorem writable_of_address {op : Operand} {s : State} {a : U64} (h : operandAddress op s = .ok a) : writable op = true := by
  cases op <;> first | rfl | cases h

/-- The kinds a read can end in. -/
theorem readOperand_errors {op : Operand} {s : State} {k : ErrKind} (h : readOperand op s = .error k) :
    k = .invalidOperand ∨ k = .registerIndexOutOfBounds ∨ (k = .memoryPoisoned ∧ s.ctx.memPoisoned = true) ∨
      k = .addressNotPresent ∨ k = .widthMismatch := by
  have hm : ∀ a w, memRead a w s = .error k →
      (k = .memoryPoisoned ∧ s.ctx.memPoisoned = true) ∨ k = .addressNotPresent ∨ k = .widthMismatch := by
    intro a w h
    unfold memRead at h
    split at h
    · rename_i hp; cases h; exact .inl ⟨rfl, hp⟩
    · split at h
      · cases h; exact .inr (.inl rfl)
      · split at h
        · cases h; exact .inr (.inr rfl)
        · cases h
  cases op with
  | none => cases h; exact .inl rfl
  | immediate => cases h
  | register w i =>
    rcases regRead_cases w i s with ⟨_, e⟩ | e <;> simp only [readOperand, e] at h <;> cases h
    exact .inr (.inl rfl)
  | memory w a => exact .inr (.inr (hm _ _ h))
  | memoryRegister w i =>
    rcases regRead_cases .qword i s with ⟨_, e⟩ | e <;> simp only [readOperand, operandAddress, e] at h
    · exact .inr (.inr (hm _ _ h))
    · cases h; exact .inr (.inl rfl)

/-- The kinds a write through a writable operand can end in. -/
theorem writeOperand_errors {op : Operand} {v : U64} {s : State} {k : ErrKind} (hd : writable op = true)
    (h : writeOperand op v s = .error k) : k = .registerIndexOutOfBounds ∨ (k = .memoryPoisoned ∧ s.ctx.memPoisoned = true) := by
  rcases writeOperand_cases op v s with ⟨e', e⟩ | ⟨_, _, _, _, e⟩ | ⟨_, _, _, e⟩ | ⟨_, e | ⟨hp, e⟩⟩ <;> rw [h] at e <;> cases e
  · simp [hd] at e'
  · exact .inl rfl
  · exact .inr ⟨rfl, hp⟩

/-- A write through an operand with an address replaces the cell under it. -/
theorem writeOperand_of_address {op : Operand} {v a : U64} {s : State} (ha : operandAddress op s = .ok a)
    (hp : s.ctx.memPoisoned = false) :
    writeOperand op v s = .ok (s.setMem (Memory.put a.toNat (bytesOfValue (operandWidth op) v) s.ctx.mem)) := by
  cases op with
  | none => cases ha
  | immediate => cases ha
  | register => cases ha
  | memory w x => simp only [writeOperand, ha, memWrite, hp]; rfl
  | memoryRegister w x => simp only [writeOperand, ha, memWrite, hp]; rfl

/-- A write changes register `j` only if its operand names it. -/
theorem writeOperand_reg {op : Operand} {v : U64} {s t : State} (j : Fin 16) (hw : writeOperand op v s = .ok t)
    (h : namesRegister op j.val = false) : t.reg j = s.reg j := by
  rcases writeOperand_cases op v s with ⟨_, e⟩ | ⟨w, i, hi, rfl, e⟩ | ⟨_, _, _, e⟩ | ⟨_, e | ⟨_, e⟩⟩ <;> rw [hw] at e <;> cases e
  · refine reg_setReg_ne _ _ _ _ fun e => ?_
    simp [namesRegister] at h; exact h (congrArg Fin.val e).symm
  · rfl

/-- What no write changes. -/
theorem writeOperand_keeps {op : Operand} {v : U64} {s t : State} (hw : writeOperand op v s = .ok t) :
    t.proc.run = s.proc.run ∧ t.proc.phase = s.proc.phase ∧ t.others = s.others ∧ t.callTable = s.callTable ∧ t.draws = s.draws ∧
      t.dumps = s.dumps ∧ t.ctx = (s.setMem t.ctx.mem).ctx := by
  rcases writeOperand_cases op v s with ⟨_, e⟩ | ⟨_, _, _, _, e⟩ | ⟨_, _, _, e⟩ | ⟨_, e | ⟨_, e⟩⟩ <;> rw [hw] at e <;> cases e <;>
    exact ⟨rfl, rfl, rfl, rfl, rfl, rfl, rfl⟩

/-- A write to a register leaves the context alone. -/
theorem writeOperand_ctx {op : Operand} {v : U64} {s t : State} (hw : writeOperand op v s = .ok t) (h : inMemory op = false) :
    t.ctx = s.ctx := by
  rcases writeOperand_cases op v s with ⟨_, e⟩ | ⟨_, _, _, _, e⟩ | ⟨_, ha, _, e⟩ | ⟨_, e | ⟨_, e⟩⟩ <;> rw [hw] at e <;> cases e
  · rfl
  · cases op with
    | none | immediate _ | register _ _ => cases ha
    | memory _ _ | memoryRegister _ _ => exact Bool.noConfusion h

/-- A write to memory changes the store and nothing else, and there one cell. -/
theorem writeOperand_memory {op : Operand} {v : U64} {s t : State} (hm : inMemory op = true) (hw : writeOperand op v s = .ok t) :
    ∃ a, operandAddress op s = .ok a ∧ t = s.setMem (Memory.put a.toNat (bytesOfValue (operandWidth op) v) s.ctx.mem) := by
  rcases writeOperand_cases op v s with ⟨_, e⟩ | ⟨_, _, _, rfl, e⟩ | ⟨a, ha, _, e⟩ | ⟨_, e | ⟨_, e⟩⟩ <;> rw [hw] at e <;> cases e
  · cases hm
  · exact ⟨a, ha, rfl⟩

/-- A write keeps every cell present and the store canonical. -/
theorem writeOperand_cells {op : Operand} {v : U64} {s t : State} (hw : writeOperand op v s = .ok t) :
    (∀ a, Memory.cell a s.ctx.mem ≠ none → Memory.cell a t.ctx.mem ≠ none) ∧
      (Memory.wf s.ctx.mem = true → Memory.wf t.ctx.mem = true) := by
  rcases writeOperand_cases op v s with ⟨_, e⟩ | ⟨_, _, _, _, e⟩ | ⟨a, _, _, e⟩ | ⟨_, e | ⟨_, e⟩⟩ <;> rw [hw] at e <;> cases e
  · exact ⟨fun _ => id, id⟩
  · exact ⟨fun b hb => cell_put_present _ _ _ _ hb, fun h => wf_put _ _ _ h a.isLt (cellSizeOK_bytesOfValue _ _)⟩

/-! ### Bytes and sums -/

theorem getElem?_bytesOfValue (w : Width) (v : U64) (k : Nat) (h : k < widthBytes w) :
    (bytesOfValue w v)[k]? = some (v.extractLsb' (8 * k) 8) := by
  rw [bytesOfValue, getElem?_bytesOfNat _ _ _ h]
  congr 1
  apply BitVec.eq_of_toNat_eq
  simp [BitVec.extractLsb'_toNat, Nat.shiftRight_eq_div_pow]
  rw [show (256 : Nat) = 2 ^ 8 from rfl, ← Nat.pow_mul]

theorem addCarry_eq (w : Width) (a b : U64) :
    addCarry w a b = decide (2 ^ widthBits w ≤ a.toNat % 2 ^ widthBits w + b.toNat % 2 ^ widthBits w) := by
  simp [addCarry, exactSum, toNat_cut]

theorem toNat_addResult (w : Width) (a b : U64) : (addResult w a b).toNat = (a.toNat + b.toNat) % 2 ^ widthBits w := by
  simp only [addResult, toNat_cut, exactSum, BitVec.toNat_ofNat]
  rw [Nat.mod_mod_of_dvd _ (Nat.pow_dvd_pow 2 (widthBits_le w)), ← Nat.add_mod]

/-! ### Mov and Add past their reads -/

theorem exec_mov_of_read {src dst : Operand} {v : U64} {s : State} (hr : readOperand src s = .ok v) (hd : writable dst = true) :
    exec (.mov src dst) s = store dst v s := by
  simp only [exec, execMov]
  rw [shaped_ok (by simp [readable_of_read hr, hd]), resolve_ok _ hr]

theorem exec_add_of_reads {value source dst : Operand} {a b : U64} {s : State} (hs : readOperand source s = .ok a)
    (hv : readOperand value s = .ok b) (hd : writable dst = true) :
    exec (.add value source dst) s = store dst (addResult (operandWidth dst) a b) (addFlag dst a b s) := by
  simp only [exec, execAdd]
  rw [shaped_ok (by simp [readable_of_read hs, readable_of_read hv, hd]), resolve_ok _ hs, resolve_ok _ hv]

/-! ### Every outcome of an instruction that runs no callback -/

/-- Why an instruction can fail before it changes anything. -/
def FailsEarly (i : Instr) (s : State) (k : ErrKind) : Prop :=
  (i.wellFormed = false ∧ k = .invalidOperand) ∨
    (i.wellFormed = true ∧ (∀ src, (i = .jz src → s.flagZ = true) ∧ (i = .jnz src → s.flagZ = false)) ∧
      ∃ op, readOperand op s = .error k) ∨
    ((∃ idx, i = .call idx) ∧ k = .callIndexUnknown)

/-- The states an instruction that runs no callback can lead to. -/
inductive Ran (i : Instr) (s : State) : State → Prop
  | fail (k : ErrKind) (h : FailsEarly i s k) : Ran i s (s.setRun (.faulted k))
  | movError (src dst : Operand) (v : U64) (k : ErrKind) (hi : i = .mov src dst) (hr : readOperand src s = .ok v)
      (hd : writable dst = true) (hw : writeOperand dst v s = .error k) : Ran i s (s.setRun (.faulted k))
  | mov (src dst : Operand) (v : U64) (t : State) (hi : i = .mov src dst) (hr : readOperand src s = .ok v)
      (hw : writeOperand dst v s = .ok t) : Ran i s (t.setIC (t.ic + 1))
  | addError (value source dst : Operand) (a b : U64) (k : ErrKind) (hi : i = .add value source dst)
      (hs : readOperand source s = .ok a) (hv : readOperand value s = .ok b) (hd : writable dst = true)
      (hw : writeOperand dst (addResult (operandWidth dst) a b) (addFlag dst a b s) = .error k) :
      Ran i s ((addFlag dst a b s).setRun (.faulted k))
  | add (value source dst : Operand) (a b : U64) (t : State) (hi : i = .add value source dst)
      (hs : readOperand source s = .ok a) (hv : readOperand value s = .ok b)
      (hw : writeOperand dst (addResult (operandWidth dst) a b) (addFlag dst a b s) = .ok t) : Ran i s (t.setIC (t.ic + 1))
  | cmp (value comparator : Operand) (a b : U64) (hi : i = .cmp value comparator) (hv : readOperand value s = .ok a)
      (hc : readOperand comparator s = .ok b) : Ran i s (((s.setZ (cmpZero a b)).setG (cmpGreater a b)).setIC (s.ic + 1))
  | jmp (src : Operand) (v : U64) (hi : i = .jmp src) (hr : readOperand src s = .ok v) : Ran i s (s.setIC v)
  | jz (src : Operand) (v : U64) (hi : i = .jz src) (hz : s.flagZ = true) (hr : readOperand src s = .ok v) :
      Ran i s ((s.setZ false).setIC v)
  | jzNot (src : Operand) (hi : i = .jz src) (hz : s.flagZ = false) : Ran i s (s.setIC (s.ic + 1))
  | jnz (src : Operand) (v : U64) (hi : i = .jnz src) (hz : s.flagZ = false) (hr : readOperand src s = .ok v) : Ran i s (s.setIC v)
  | jnzNot (src : Operand) (hi : i = .jnz src) (hz : s.flagZ = true) : Ran i s (s.setIC (s.ic + 1))
  | dump (idx : Operand) (hi : i = .call idx) (hr : readOperand idx s = .ok 0#64) : Ran i s ((dump s).setIC (s.ic + 1))

/-- An instruction that runs no callback answers a next state, and it is one of `Ran`. -/
theorem exec_ran (i : Instr) (s : State) (hc : runsCallback i s = false) : ∃ t, exec i s = .next t ∧ Ran i s t := by
  cases hw : i.wellFormed with
  | false =>
    refine ⟨_, ?_, .fail _ (.inl ⟨hw, rfl⟩)⟩
    cases i <;> simp only [exec, execCall, execMov, execJmp, execJz, execJnz, execCmp, execAdd] <;> apply shaped_bad <;>
      simpa [readable_eq, writable_eq, Instr.wellFormed] using hw
  | true =>
    cases i with
    | call idx =>
      simp only [exec, execCall]
      rw [shaped_ok (by simpa [readable_eq, Instr.wellFormed] using hw)]
      cases hr : readOperand idx s with
      | error k => exact ⟨_, resolve_error _ hr, .fail k (.inr (.inl ⟨hw, by simp, idx, hr⟩))⟩
      | ok n =>
        rw [resolve_ok _ hr]
        by_cases h0 : n = 0#64
        · subst h0; rw [if_pos rfl]; exact ⟨_, rfl, .dump idx rfl hr⟩
        · have hn : n ∉ s.callTable := by
            simp only [runsCallback, hr] at hc
            simpa [h0] using hc
          rw [if_neg h0, if_neg hn]
          exact ⟨_, rfl, .fail _ (.inr (.inr ⟨⟨idx, rfl⟩, rfl⟩))⟩
    | mov src dst =>
      have hd : writable dst = true := by simp [Instr.wellFormed] at hw; rw [writable_eq]; exact hw.2
      cases hr : readOperand src s with
      | error k =>
        simp only [exec, execMov]
        rw [shaped_ok (by simpa [readable_eq, writable_eq, Instr.wellFormed] using hw)]
        exact ⟨_, resolve_error _ hr, .fail k (.inr (.inl ⟨hw, by simp, src, hr⟩))⟩
      | ok v =>
        rw [exec_mov_of_read hr hd]
        cases hx : writeOperand dst v s with
        | error k => exact ⟨_, store_error hx, .movError _ _ _ _ rfl hr hd hx⟩
        | ok t => exact ⟨_, store_ok hx, .mov _ _ _ _ rfl hr hx⟩
    | add value source dst =>
      have hd : writable dst = true := by simp [Instr.wellFormed] at hw; rw [writable_eq]; exact hw.2
      have sh := shaped_ok (s := s) (body := resolve source s fun a => resolve value s fun b =>
        store dst (addResult (operandWidth dst) a b) (addFlag dst a b s)) (src := [value, source]) (dst := [dst])
        (by simpa [readable_eq, writable_eq, Instr.wellFormed] using hw)
      cases hr : readOperand source s with
      | error k =>
        simp only [exec, execAdd]
        rw [sh]
        exact ⟨_, resolve_error _ hr, .fail k (.inr (.inl ⟨hw, by simp, source, hr⟩))⟩
      | ok a =>
        cases hv : readOperand value s with
        | error k =>
          simp only [exec, execAdd]
          rw [sh, resolve_ok _ hr]
          exact ⟨_, resolve_error _ hv, .fail k (.inr (.inl ⟨hw, by simp, value, hv⟩))⟩
        | ok b =>
          rw [exec_add_of_reads hr hv hd]
          cases hx : writeOperand dst (addResult (operandWidth dst) a b) (addFlag dst a b s) with
          | error k => exact ⟨_, store_error hx, .addError _ _ _ _ _ _ rfl hr hv hd hx⟩
          | ok t => exact ⟨_, store_ok hx, .add _ _ _ _ _ _ rfl hr hv hx⟩
    | cmp x y =>
      simp only [exec, execCmp]
      rw [shaped_ok (by simpa [readable_eq, Instr.wellFormed] using hw)]
      cases hr : readOperand x s with
      | error k => exact ⟨_, resolve_error _ hr, .fail k (.inr (.inl ⟨hw, by simp, x, hr⟩))⟩
      | ok a =>
        rw [resolve_ok _ hr]
        cases hr2 : readOperand y s with
        | error k => exact ⟨_, resolve_error _ hr2, .fail k (.inr (.inl ⟨hw, by simp, y, hr2⟩))⟩
        | ok b =>
          rw [resolve_ok _ hr2]
          refine ⟨_, rfl, ?_⟩
          rw [setG_ic, setZ_ic]
          exact .cmp x y a b rfl hr hr2
    | jmp src =>
      simp only [exec, execJmp]
      rw [shaped_ok (by simpa [readable_eq, Instr.wellFormed] using hw)]
      cases hr : readOperand src s with
      | error k => exact ⟨_, resolve_error _ hr, .fail k (.inr (.inl ⟨hw, by simp, src, hr⟩))⟩
      | ok v => rw [resolve_ok _ hr]; exact ⟨_, rfl, .jmp _ _ rfl hr⟩
    | jz src =>
      simp only [exec, execJz]
      rw [shaped_ok (by simpa [readable_eq, Instr.wellFormed] using hw)]
      cases hz : s.flagZ with
      | false => exact ⟨_, rfl, .jzNot _ rfl hz⟩
      | true =>
        cases hr : readOperand src s with
        | error k => exact ⟨_, by rw [if_pos rfl, resolve_error _ hr], .fail k (.inr (.inl ⟨hw, by simp [hz], src, hr⟩))⟩
        | ok v => exact ⟨_, by rw [if_pos rfl, resolve_ok _ hr]; rfl, .jz _ _ rfl hz hr⟩
    | jnz src =>
      simp only [exec, execJnz]
      rw [shaped_ok (by simpa [readable_eq, Instr.wellFormed] using hw)]
      cases hz : s.flagZ with
      | true => exact ⟨_, rfl, .jnzNot _ rfl hz⟩
      | false =>
        simp only [Bool.false_eq_true, if_false]
        cases hr : readOperand src s with
        | error k => exact ⟨_, resolve_error _ hr, .fail k (.inr (.inl ⟨hw, by simp [hz], src, hr⟩))⟩
        | ok v => exact ⟨_, by rw [resolve_ok _ hr]; rfl, .jnz _ _ rfl hz hr⟩

/-- The one case in which an instruction runs a callback. -/
theorem runsCallback_cases {i : Instr} {s : State} (h : runsCallback i s = true) :
    ∃ idx n, i = .call idx ∧ readOperand idx s = .ok n ∧ n ≠ 0#64 ∧ n ∈ s.callTable := by
  cases i with
  | call idx =>
    simp only [runsCallback] at h
    split at h
    · rename_i n hr
      simp at h
      exact ⟨idx, n, rfl, hr, h.1, h.2⟩
    · cases h
  | _ => cases h

/-- A Call of a registered index is its callback's accesses and then its return. -/
theorem exec_call_registered {idx : Operand} {n : U64} {s : State} (hr : readOperand idx s = .ok n) (h0 : n ≠ 0#64)
    (hn : n ∈ s.callTable) :
    exec (.call idx) s = callbackFinish (callbackOf n s) (countDraw s) := by
  simp only [exec, execCall]
  rw [shaped_ok (by simp [readable_of_read hr]), resolve_ok _ hr, if_neg h0, if_pos hn]

/-! ### What a callback's accesses keep -/

/-- What no access of a callback changes, undoes or spoils. -/
structure ActKeeps (s t : State) : Prop where
  run : t.proc.run = s.proc.run
  phase : t.proc.phase = s.proc.phase
  others : t.others = s.others
  callTable : t.callTable = s.callTable
  dumps : t.dumps = s.dumps
  stream : t.ctx.stream = s.ctx.stream
  streamPoisoned : s.ctx.streamPoisoned = true → t.ctx.streamPoisoned = true
  memPoisoned : s.ctx.memPoisoned = true → t.ctx.memPoisoned = true
  cells : ∀ a, Memory.cell a s.ctx.mem ≠ none → Memory.cell a t.ctx.mem ≠ none
  wf : Memory.wf s.ctx.mem = true → Memory.wf t.ctx.mem = true

theorem ActKeeps.refl (s : State) : ActKeeps s s := ⟨rfl, rfl, rfl, rfl, rfl, rfl, id, id, fun _ => id, id⟩

theorem ActKeeps.act {s t : State} (a : CallbackAct) (h : ActKeeps s t) : ActKeeps s (callbackAct a t).2 := by
  obtain ⟨h1, h2, h3, h4, h5, h6, h7, h8, h9, h10⟩ := h
  rcases callbackAct_cases a t with e | ⟨i, v, e⟩ | ⟨ad, w, v, e⟩ | e | e <;> rw [e]
  · exact ⟨h1, h2, h3, h4, h5, h6, h7, h8, h9, h10⟩
  · exact ⟨h1, h2, h3, h4, h5, h6, h7, h8, h9, h10⟩
  · exact ⟨h1, h2, h3, h4, h5, h6, h7, h8, fun a ha => cell_put_present _ _ _ _ (h9 a ha),
      fun hw => wf_put _ _ _ (h10 hw) ad.isLt (cellSizeOK_bytesOfValue _ _)⟩
  · exact ⟨h1, h2, h3, h4, h5, h6, h7, fun _ => rfl, h9, h10⟩
  · exact ⟨h1, h2, h3, h4, h5, h6, fun _ => rfl, h8, h9, h10⟩

/-- What the accesses keep, the whole callback keeps. -/
theorem ActKeeps.run_all {s t : State} (c : CallbackTree) (h : ActKeeps s t) : ActKeeps s (callbackRun c t).2 :=
  callbackRun_keep (ActKeeps s) (fun a _ h => h.act a) c t h

end Sys2Proof.Machine
end

