-- ==== Sys2Proof/Laws/PerInstr.lean ====
section
/-! SUPPORT. Per-instruction statements. Family `EncodeRow`: an instruction's encoding lies in its row of the opcode table
(30_encoding.md R94): every fixed bit of the row's format has the row's value. -/

namespace Sys2Proof.Laws.EncodeRow

/-- `encode i &&& mask = match` for the row of `i`. -/
def Statement (i : Instr) : Prop := encode i &&& formatMask i.tableRow.2 = i.tableRow.1

/-- A slot from its eight fields, the most significant first (R84). -/
def fields (p2 p1 p0 : U64) (r : BitVec 32) (d2 d1 d0 op : Byte) : Slot :=
  p2 ++ p1 ++ p0 ++ r ++ d2 ++ d1 ++ d0 ++ op

/-- Masking acts on each field by itself. -/
theorem fields_and (p2 p1 p0 q2 q1 q0 : U64) (r r' : BitVec 32) (d2 d1 d0 op e2 e1 e0 op' : Byte) :
    fields p2 p1 p0 r d2 d1 d0 op &&& fields q2 q1 q0 r' e2 e1 e0 op' =
      fields (p2 &&& q2) (p1 &&& q1) (p0 &&& q0) (r &&& r') (d2 &&& e2) (d1 &&& e1) (d0 &&& e0) (op &&& op') := by
  have e : ∀ x y : Slot, (∀ i, (x &&& y).getLsbD i = (x.getLsbD i && y.getLsbD i)) := fun x y i => BitVec.getLsbD_and
  apply BitVec.eq_of_getLsbD_eq
  intro i hi
  rw [e]
  simp only [fields, BitVec.getLsbD_append, BitVec.getLsbD_and]
  by_cases h0 : i < 8
  · simp only [h0, if_true]
  by_cases h1 : i - 8 < 8
  · simp only [h0, h1, if_true, if_false]
  by_cases h2 : i - 8 - 8 < 8
  · simp only [h0, h1, h2, if_true, if_false]
  by_cases h3 : i - 8 - 8 - 8 < 8
  · simp only [h0, h1, h2, h3, if_true, if_false]
  by_cases h4 : i - 8 - 8 - 8 - 8 < 32
  · simp only [h0, h1, h2, h3, h4, if_true, if_false]
  by_cases h5 : i - 8 - 8 - 8 - 8 - 32 < 64
  · simp only [h0, h1, h2, h3, h4, h5, if_true, if_false]
  by_cases h6 : i - 8 - 8 - 8 - 8 - 32 - 64 < 64
  · simp only [h0, h1, h2, h3, h4, h5, h6, if_true, if_false]
  · simp only [h0, h1, h2, h3, h4, h5, h6, if_false]

theorem mkSlot_fields (op : Byte) (a b c : Operand) :
    mkSlot op a b c = fields c.payload b.payload a.payload 0 c.descriptor b.descriptor a.descriptor op := rfl

theorem mask1_fields : formatMask 1 = fields (-1) (-1) 0 (-1) (-1) (-1) 0xE0#8 (-1) := by decide
theorem mask2_fields : formatMask 2 = fields (-1) 0 0 (-1) (-1) 0xE0#8 0xE0#8 (-1) := by decide
theorem mask3_fields : formatMask 3 = fields 0 0 0 (-1) 0xE0#8 0xE0#8 0xE0#8 (-1) := by decide

theorem descriptorByte_masked (w : BitVec 2) (k : BitVec 3) : descriptorByte w k &&& 0xE0#8 = 0#8 := by
  revert w k; decide

theorem and_ones (x : Byte) : x &&& 255#8 = x := by revert x; decide

/-- The top three bits of a descriptor are zero. -/
theorem descriptor_masked (a : Operand) : a.descriptor &&& 0xE0#8 = 0#8 := by
  cases a <;> exact descriptorByte_masked _ _

theorem row1 (op : Byte) (a : Operand) :
    mkSlot op a .none .none &&& formatMask 1 = fields 0 0 0 0 0 0 0 op := by
  rw [mkSlot_fields, mask1_fields, fields_and, descriptor_masked]
  simp [Operand.descriptor, Operand.payload, descriptorByte, and_ones]

theorem row2 (op : Byte) (a b : Operand) :
    mkSlot op a b .none &&& formatMask 2 = fields 0 0 0 0 0 0 0 op := by
  rw [mkSlot_fields, mask2_fields, fields_and, descriptor_masked, descriptor_masked]
  simp [Operand.descriptor, Operand.payload, descriptorByte, and_ones]

theorem row3 (op : Byte) (a b c : Operand) :
    mkSlot op a b c &&& formatMask 3 = fields 0 0 0 0 0 0 0 op := by
  rw [mkSlot_fields, mask3_fields, fields_and, descriptor_masked, descriptor_masked, descriptor_masked]
  simp [and_ones]

theorem match0 : fields 0 0 0 0 0 0 0 0 = (0 : Slot) := by decide
theorem match1 : fields 0 0 0 0 0 0 0 1 = (1 : Slot) := by decide
theorem match2 : fields 0 0 0 0 0 0 0 2 = (2 : Slot) := by decide
theorem match3 : fields 0 0 0 0 0 0 0 3 = (3 : Slot) := by decide
theorem match4 : fields 0 0 0 0 0 0 0 4 = (4 : Slot) := by decide
theorem match5 : fields 0 0 0 0 0 0 0 5 = (5 : Slot) := by decide
theorem match6 : fields 0 0 0 0 0 0 0 6 = (6 : Slot) := by decide

theorem call (idx : Operand) : Statement (.call idx) := (row1 0 idx).trans match0
theorem mov (src dst : Operand) : Statement (.mov src dst) := (row2 1 src dst).trans match1
theorem jmp (src : Operand) : Statement (.jmp src) := (row1 2 src).trans match2
theorem jz (src : Operand) : Statement (.jz src) := (row1 3 src).trans match3
theorem jnz (src : Operand) : Statement (.jnz src) := (row1 4 src).trans match4
theorem cmp (value comparator : Operand) : Statement (.cmp value comparator) :=
  (row2 5 value comparator).trans match5
theorem add (value source dst : Operand) : Statement (.add value source dst) :=
  (row3 6 value source dst).trans match6

end Sys2Proof.Laws.EncodeRow
end

