-- ==== Sys2Proof/Laws/Step.lean ====
section
/-! SUPPORT. The fetch, the step between two instructions, and the access-by-access machine (41_engine.md, 20_memory.md R63). -/

namespace Sys2Proof.Machine

/-! ### The fetch -/

theorem fetch_poisoned {s : State} (h : s.ctx.streamPoisoned = true) : fetch s = .poisoned := by simp [fetch, h]

theorem fetch_outOfRange {s : State} (hp : s.ctx.streamPoisoned = false) (hl : s.ctx.stream.length ≤ s.ic.toNat) :
    fetch s = .outOfRange := by
  have h : s.ctx.stream[s.ic.toNat]? = none := by simpa using hl
  simp [fetch, hp, h]

theorem fetch_invalid {s : State} {W : Slot} {r : Reject} (hp : s.ctx.streamPoisoned = false)
    (hW : s.ctx.stream[s.ic.toNat]? = some W) (hd : decode W = .error r) : fetch s = .invalid r := by simp [fetch, hp, hW, hd]

theorem fetch_instr {s : State} {W : Slot} {i : Instr} (hp : s.ctx.streamPoisoned = false)
    (hW : s.ctx.stream[s.ic.toNat]? = some W) (hd : decode W = .ok i) : fetch s = .instr i := by simp [fetch, hp, hW, hd]

/-- A fetch finds nothing past the end only. -/
theorem of_fetch_outOfRange {s : State} (h : fetch s = .outOfRange) :
    s.ctx.streamPoisoned = false ∧ s.ctx.stream.length ≤ s.ic.toNat := by
  unfold fetch at h
  split at h
  · cases h
  · rename_i hp
    split at h
    · rename_i hn; exact ⟨by simpa using hp, by simpa using hn⟩
    · split at h <;> cases h

/-! ### The step -/

theorem not_faulted {s : State} (h : isFaulted s = false) (k : ErrKind) : s.proc.run ≠ .faulted k := by
  intro e; simp [isFaulted, e] at h

theorem whenRunning_running {s : State} {go : Result} (h : s.proc.run = .running) : whenRunning s go = go := by simp [whenRunning, h]

theorem whenRunning_idle {s : State} {go : Result} (h : s.proc.run = .idle) : whenRunning s go = .next s := by simp [whenRunning, h]

theorem whenRunning_halted {s : State} {go : Result} (h : s.proc.run = .halted) : whenRunning s go = .next s := by simp [whenRunning, h]

theorem whenRunning_faulted {s : State} {go : Result} {k : ErrKind} (h : s.proc.run = .faulted k) :
    whenRunning s go = .refused (.runFaulted k) := by simp [whenRunning, h]

/-- All a turn can do: where it answers a next state, the processor ran, or it waited and nothing changed. -/
theorem of_whenRunning {s t : State} {go : Result} (h : whenRunning s go = .next t) :
    (s.proc.run = .running ∧ go = .next t) ∨ (s.proc.run ≠ .running ∧ t = s) := by
  unfold whenRunning at h
  split at h
  · exact .inl ⟨‹_›, h⟩
  · rename_i e; exact .inr ⟨by simp [e], by simpa using h.symm⟩
  · rename_i e; exact .inr ⟨by simp [e], by simpa using h.symm⟩
  · cases h

/-- Between two instructions of a run a step is the fetch and what follows from it. -/
theorem step_at_boundary {s : State} (h : s.proc.run = .running) (hb : s.proc.phase = .boundary) :
    step s = fetchThen s fun i => exec i s := by simp [step, whenRunning_running h, hb]

/-- Inside an instruction a step is one access. -/
theorem step_inside {s : State} (h : s.proc.run = .running) (hb : s.proc.phase ≠ .boundary) : step s = accessStep s := by
  simp only [step, whenRunning_running h]

/-! ### One access, and runs of accesses -/

/-- The access of a running processor is the one its progress names. -/
theorem accessStep_running {s : State} (h : s.proc.run = .running) : accessStep s = accessAt s.proc.phase (s.setPhase .boundary) :=
  whenRunning_running h

/-- The access of a running processor that stands inside an instruction. -/
theorem accessStep_setPhase {s : State} {p : Phase} (hr : s.proc.run = .running) (hb : s.proc.phase = .boundary) :
    accessStep (s.setPhase p) = accessAt p s := by
  have e : (s.setPhase p).setPhase .boundary = s := by
    cases s with | mk proc => cases proc; simp_all [State.setPhase]
  rw [accessStep_running (s := s.setPhase p) hr, setPhase_proc_phase, e]

/-- The last access of a callback is its return. -/
theorem accessAt_callback_ret {n : U64} {draw : Nat} {answers : List CallbackAnswer} {result : Option ErrKind} (s : State)
    (h : callbackAfter (Config.hostCallback n draw) answers = .ret result) :
    accessAt (.callback n draw answers) s = callbackReturn result s := by simp [accessAt, h]

/-- Every other access of a callback is made, and its answer is one more the callback has had. -/
theorem accessAt_callback_act {n : U64} {draw : Nat} {answers : List CallbackAnswer} {a : CallbackAct}
    {next : CallbackAnswer → CallbackTree} (s : State) (h : callbackAfter (Config.hostCallback n draw) answers = .act a next) :
    accessAt (.callback n draw answers) s =
      .next ((callbackAct a s).2.setPhase (.callback n draw (answers ++ [(callbackAct a s).1]))) := by simp [accessAt, h]

theorem accessRun_boundary {n : Nat} {s : State} (h : s.proc.phase = .boundary) : accessRun n s = .next s := by
  cases n <;> simp [accessRun, h]

theorem accessRun_next {n : Nat} {s t : State} (h : s.proc.phase ≠ .boundary) (ha : accessStep s = .next t) :
    accessRun (n + 1) s = accessRun n t := by
  simp only [accessRun, ha]

end Sys2Proof.Machine
end

