-- ==== Sys2Proof/Tests/Slice0.lean ====
section
/-! SUPPORT. Own tests: ill-formed instructions, words written out from the encoding tables, one-step vectors of 95_test_vectors.md (named
in each comment), and for every obligation with hypotheses a state and operands that meet them, clause by clause. -/

namespace Sys2Proof.Tests
open Sys2Proof.Machine

/-! ### Small states -/

/-- A state with these registers and this store, everything else as after reset. -/
def mk (regs : List (Fin 16 × U64)) (mem : Memory) : State :=
  (regs.foldl (fun s p => s.setReg p.1 p.2) State.reset).setMem mem

/-- The same with a poisoned store. -/
def mkPoisoned (regs : List (Fin 16 × U64)) (mem : Memory) : State := (mk regs mem).setMemPoisoned true

/-- The outcome is a next state with this property. -/
def nextSat (o : Result) (p : State → Bool) : Bool :=
  match o with
  | .next t => p t
  | .fault _ | .refused _ => false

/-- The step that runs the instruction whose bits are `w`, placed where the next fetch finds it. -/
def run (w : Nat) (s : State) : Result := step (s.withFetchWord 256 w)

/-- The run ended with this error and IC still names the failing instruction. -/
def failedWith (k : ErrKind) (ic : U64) (t : State) : Bool := t.proc.run == .faulted k && t.ic == ic

/-! ### WellFormed: one ill-formed term for each check (40_operands.md R121) -/

theorem test_wf_call_none : (Instr.call .none).wellFormed = false := by decide
theorem test_wf_mov_source : (Instr.mov .none (.register .qword 0)).wellFormed = false := by decide
theorem test_wf_mov_dest_none : (Instr.mov (.immediate 1) .none).wellFormed = false := by decide
theorem test_wf_mov_dest_immediate : (Instr.mov (.immediate 1) (.immediate 2)).wellFormed = false := by decide
theorem test_wf_jmp_none : (Instr.jmp .none).wellFormed = false := by decide
theorem test_wf_jz_none : (Instr.jz .none).wellFormed = false := by decide
theorem test_wf_jnz_none : (Instr.jnz .none).wellFormed = false := by decide
theorem test_wf_cmp_value : (Instr.cmp .none (.immediate 0)).wellFormed = false := by decide
theorem test_wf_cmp_comparator : (Instr.cmp (.immediate 0) .none).wellFormed = false := by decide
theorem test_wf_add_value : (Instr.add .none (.immediate 0) (.register .byte 0)).wellFormed = false := by decide
theorem test_wf_add_source : (Instr.add (.immediate 0) .none (.register .byte 0)).wellFormed = false := by decide
theorem test_wf_add_dest : (Instr.add (.immediate 0) (.immediate 0) (.immediate 0)).wellFormed = false := by decide
/-- An index out of range is no shape error (R121). -/
theorem test_wf_index_is_no_shape : (Instr.mov (.immediate 1) (.register .qword 16)).wellFormed = true := by decide

/-! ### Decoding: words written out from 30_encoding.md R84 to R88, one per constructor -/

/-- `call #0` (K1): opcode 0, d0 = 01 (Immediate). -/
theorem test_decode_call : decodeTableWord 256 0x0000000000000000_0000000000000000_0000000000000000_00000000_00000100 =
    some (.call (.immediate 0)) := by decide
/-- `mov r1.d, [0x20].w` (M1): d0 = 12 (width code 2, kind 2), d1 = 0B (width code 1, kind 3). -/
theorem test_decode_mov : decodeTableWord 256 0x0000000000000000_0000000000000020_0000000000000001_00000000_000B1201 =
    some (.mov (.register .dword 1) (.memory .word 0x20)) := by decide
/-- `jmp #7` (J1). -/
theorem test_decode_jmp : decodeTableWord 256 0x0000000000000000_0000000000000000_0000000000000007_00000000_00000102 =
    some (.jmp (.immediate 7)) := by decide
/-- `jz [0x50].q` (J7): d0 = 1B. -/
theorem test_decode_jz : decodeTableWord 256 0x0000000000000000_0000000000000000_0000000000000050_00000000_00001B03 =
    some (.jz (.memory .qword 0x50)) := by decide
/-- `jnz [r1].w` (J16): d0 = 0C (width code 1, kind 4). -/
theorem test_decode_jnz : decodeTableWord 256 0x0000000000000000_0000000000000000_0000000000000001_00000000_00000C04 =
    some (.jnz (.memoryRegister .word 1)) := by decide
/-- `cmp r3.b, r3.q` (C5): d0 = 02, d1 = 1A. -/
theorem test_decode_cmp : decodeTableWord 256 0x0000000000000000_0000000000000003_0000000000000003_00000000_001A0205 =
    some (.cmp (.register .byte 3) (.register .qword 3)) := by decide
/-- `add #1, r1.b, r0.q` (A9): p2 names the destination. -/
theorem test_decode_add : decodeTableWord 256 0x0000000000000005_0000000000000001_0000000000000001_00000000_1A020106 =
    some (.add (.immediate 1) (.register .byte 1) (.register .qword 5)) := by decide
/-- The blank slot is a Call with no operand (D14), not a no-op. -/
theorem test_decode_blank : decode 0#256 = .ok (.call .none) := by decide

/-- Slots D1, D3, D5, D6, D8, D9 and D10: one for each of the six conditions of R90, both halves of condition 3. -/
theorem test_decode_opcode : decode 0x01_00000000_001A0107#256 = .error .opcode := by decide
theorem test_decode_reserved : decode 0x0000000000000001_00000001_001A0101#256 = .error .reserved := by decide
theorem test_decode_descriptor_bits : decode 0x0000000000000001_00000000_001A2101#256 = .error .descriptorBits := by decide
theorem test_decode_kind : decode 0x0000000000000001_00000000_00050101#256 = .error .kind := by decide
theorem test_decode_width_code : decode 0x0000000000000001_00000000_001A0901#256 = .error .widthCode := by decide
theorem test_decode_none_payload : decode 0x0000000000000001_00000000_001A0001#256 = .error .nonePayload := by decide
theorem test_decode_unused : decode 0x0000000000000001_00000000_011A0101#256 = .error .unusedPosition := by decide
theorem test_decode_short : decodeBytes [1, 1] = .error .notOneSlot := by decide

/-! ### One step each, from 95_test_vectors.md -/

/-- M2: a narrow write keeps bytes 1 to 7. -/
theorem test_step_mov_narrow : nextSat (run 0x01FF_00000000_00020101 (mk [(0, 0xAAAAAAAAAAAAAAAA)] []))
    (fun t => t.reg 0 == 0xAAAAAAAAAAAAAAFF && t.ic == 1) = true := by decide
/-- M18: memory to memory through one register; the cell shrinks to 2 bytes. -/
theorem test_step_mov_memory :
    nextSat (run 0x0000000000000002_0000000000000002_00000000_000C1401 (mk [(2, 0x30)] [(0x30, [0xBE, 0xBA, 0xFE, 0xCA])]))
      (fun t => t.ctx.mem == [(0x30, [0xBE, 0xBA])] && t.reg 2 == 0x30 && t.ic == 1) = true := by decide
/-- A1: 1 + (2^64 - 1) wraps to 0 with V set. -/
theorem test_step_add_wraps : nextSat (run 0x0000000000000001_00000000_1A1A0106 (mk [(0, 0xFFFFFFFFFFFFFFFF)] []))
    (fun t => t.reg 0 == 0 && t.flags == 4 && t.ic == 1) = true := by decide
/-- A7: the operand 0x100 is cut to the byte of the destination, so V is clear (decision D5). -/
theorem test_step_add_cuts : nextSat (run 0x0000000000000001_00000000_02011A06 (mk [(1, 0x100), (14, 4)] []))
    (fun t => t.reg 0 == 0 && t.flags == 0 && t.ic == 1) = true := by decide
/-- C5: a byte of 0xFF compares as 255 with the whole register, so neither Z nor G; V is kept. -/
theorem test_step_cmp_widths : nextSat (run 0x0000000000000003_0000000000000003_00000000_001A0205 (mk [(3, 0xFFFFFFFFFFFFFFFF), (14, 7)] []))
    (fun t => t.flags == 4 && t.ic == 1) = true := by decide
/-- `cmp #0xFFFFFFFFFFFFFFFF, #0` (44_cmp.md, corner cases): greater, unsigned. -/
theorem test_step_cmp_unsigned : nextSat (run 0x0000000000000000_FFFFFFFFFFFFFFFF_00000000_00010105 (mk [] []))
    (fun t => t.flags == 2 && t.ic == 1) = true := by decide
/-- J2: `jmp r2.b` lands on the low byte. -/
theorem test_step_jmp_byte : nextSat (run 0x0000000000000002_00000000_00000202 (mk [(2, 0x1234)] []))
    (fun t => t.ic == 0x34 && t.flags == 0) = true := by decide
/-- J12: the target is read before Z is cleared. -/
theorem test_step_jz_flags : nextSat (run 0x000000000000000E_00000000_00001A03 (mk [(14, 7), (15, 2)] []))
    (fun t => t.ic == 7 && t.flags == 6) = true := by decide
/-- J8: a taken jump whose operand fails changes nothing. -/
theorem test_step_jz_fails : nextSat (run 0x0000000000000050_00000000_00001B03 (mk [(14, 1), (15, 2)] []))
    (fun t => failedWith .addressNotPresent 2 t && t.flags == 1) = true := by decide
/-- J16: a target from memory through a register, its low word. -/
theorem test_step_jnz_memory :
    nextSat (run 0x0000000000000001_00000000_00000C04 (mk [(1, 0x60), (15, 1)] [(0x60, [3, 0, 5, 0, 0, 0, 0, 0])]))
      (fun t => t.ic == 3) = true := by decide
/-- J10: not taken. -/
theorem test_step_jnz_falls : nextSat (run 0x0000000000000002_00000000_00000104 (mk [(14, 1), (15, 4)] []))
    (fun t => t.ic == 5 && t.flags == 1) = true := by decide
/-- K3: the index is the low byte, 0, so the registers are dumped. -/
theorem test_step_call_dump : nextSat (run 0x0000000000000000_00000000_00000200 (mk [(0, 0x100), (15, 1)] []))
    (fun t => t.dumps.map (fun r => (r[0], r[15])) == [(0x100, 1)] && t.ic == 2) = true := by decide
/-- K2: an index nobody registered. -/
theorem test_step_call_unknown : nextSat (run 0x0000000000000001_00000000_00000100 (mk [(15, 5)] [])) (failedWith .callIndexUnknown 5) = true := by
  decide
/-- D13: a slot of ones raises IllegalInstruction. -/
theorem test_step_illegal : nextSat (run (2 ^ 256 - 1) (mk [(15, 3)] [])) (failedWith .illegalInstruction 3) = true := by decide
/-- H1: `start()` on an empty stream halts at once. -/
theorem test_step_empty :
    hostStart State.reset = .ok (State.reset.setRun .running) ∧
      step (State.reset.setRun .running) = .next (State.reset.setRun .halted) := ⟨rfl, rfl⟩
/-- R197: nobody has called `start()`, so nothing runs, even with a program loaded. -/
theorem test_step_not_started :
    step (State.reset.setStream [encode (.jmp (.immediate 7))]) = .next (State.reset.setStream [encode (.jmp (.immediate 7))]) := rfl

/-- R93: of a 64-byte image the second slot is bytes 32 to 63, here `jmp #0`; the first is the blank slot. -/
theorem test_image_slots :
    imageSlots (List.replicate 32 0#8 ++ [2#8, 1#8] ++ List.replicate 30 0#8) = [0#256, 0x102#256] := by decide
theorem test_image_length : hostLoadImage [0#8] State.reset = .refused .imageLength := rfl

/-! ### Witnesses: states and operands that meet the hypotheses of each obligation, clause by clause at its bounds -/

/-- Three registers set, FLAGS and IC among them, and one cell of four bytes (40_operands.md section 5). -/
def sample : State := mk [(2, 0x1000), (3, 0xFFFFFFFFFFFFFF80), (14, 5), (15, 7)] [(0x1000, [0x78, 0x56, 0x34, 0x12])]

/-- `sample` with a poisoned store. -/
def samplePoisoned : State := sample.setMemPoisoned true

/-- `sample` with a callback registered under 5. -/
def sampleTable : State := { sample with callTable := [5] }

/-- `sample`, started, with a stream of two instructions and IC at 1: `mov #1, r0.q`, `jz #1`. -/
def sampleStream : State :=
  ((sample.setReg 15 1).setStream [encode (.mov (.immediate 1) (.register .qword 0)), encode (.jz (.immediate 1))]).setRun .running

theorem test_witness_EncodeOfDecode :
    decode 0x0000000000000005_0000000000000001_0000000000000001_00000000_1A020106#256 =
      .ok (.add (.immediate 1) (.register .byte 1) (.register .qword 5)) := by decide
theorem test_witness_RegReadIsLowBytes : (15#64).toNat < 16 ∧ 16 ≤ (16#64).toNat := by decide
theorem test_witness_RegWriteKeepsHighBytes :
    (14#64).toNat < 16 ∧ 16 ≤ (0xFFFFFFFFFFFFFFFF#64).toNat ∧ ∃ j : Fin 16, j.val ≠ (14#64).toNat := by decide
theorem test_witness_RegisterViewsAlias : ∃ t, (3#64).toNat < 16 ∧ regWrite .word 3 0x12345 sample = .ok t := ⟨_, by decide, rfl⟩
theorem test_witness_MemReadIsExactKeyed_poison : samplePoisoned.ctx.memPoisoned = true := by decide
theorem test_witness_MemReadIsExactKeyed_absent :
    sample.ctx.memPoisoned = false ∧ Memory.cell (0x1001#64).toNat sample.ctx.mem = none := by decide
theorem test_witness_MemReadIsExactKeyed_present :
    ∃ c, sample.ctx.memPoisoned = false ∧ Memory.cell (0x1000#64).toNat sample.ctx.mem = some c ∧
      c.length < widthBytes .qword ∧ widthBytes .dword ≤ c.length := ⟨_, by decide, rfl, by decide, by decide⟩
theorem test_witness_MemWriteReplacesTheCell :
    samplePoisoned.ctx.memPoisoned = true ∧ sample.ctx.memPoisoned = false ∧ 3 < widthBytes .dword := by decide
theorem test_witness_MemReadAfterWrite :
    ∃ t, memWrite 0x1000 .word 0xABCDEF sample = .ok t ∧ widthBytes .word ≤ widthBytes .word ∧
      widthBytes .word < widthBytes .dword ∧ (0x1001#64) ≠ 0x1000#64 := ⟨_, rfl, by decide, by decide, by decide⟩
theorem test_witness_CellsAreNeverRemoved :
    ∃ t, (step sampleStream = .next t) ∧ Memory.cell 0x1000 sampleStream.ctx.mem ≠ none := ⟨_, rfl, by decide⟩
theorem test_witness_OperandReadsByKind :
    ∃ c, 16 ≤ (16#64).toNat ∧ (15#64).toNat < 16 ∧ sample.ctx.memPoisoned = false ∧ samplePoisoned.ctx.memPoisoned = true ∧
      Memory.cell (0xFFF#64).toNat sample.ctx.mem = none ∧ Memory.cell (0x1000#64).toNat sample.ctx.mem = some c ∧
      Memory.cell (0x1000#64).toNat samplePoisoned.ctx.mem = some c ∧ c.length < widthBytes .qword ∧ widthBytes .dword ≤ c.length :=
  ⟨_, by decide, by decide, by decide, by decide, by decide, rfl, rfl, by decide, by decide⟩
theorem test_witness_RegisterIndirectUsesWholeRegister :
    ∃ t, 16 ≤ (16#64).toNat ∧ (2#64).toNat < 16 ∧ writeOperand (.memoryRegister .byte 2) 0x1FF sample = .ok t :=
  ⟨_, by decide, by decide, rfl⟩
theorem test_witness_MovToRegister :
    (15#64).toNat < 16 ∧ (0#64).toNat < 16 ∧ readOperand (.register .byte 3) sample = .ok 0x80#64 := ⟨by decide, by decide, rfl⟩
theorem test_witness_MovToMemory :
    readOperand (.immediate 9) sample = .ok 9#64 ∧ operandAddress (.memoryRegister .byte 2) sample = .ok 0x1000#64 ∧
      sample.ctx.memPoisoned = false ∧ 0 < widthBytes (operandWidth (.memoryRegister .byte 2)) := ⟨rfl, rfl, rfl, by decide⟩
/-- An ill-shaped Mov; M16, whose source and destination both fail; index 16; a poisoned store. -/
theorem test_witness_MovFailures :
    (Instr.mov (.immediate 1) (.immediate 2)).wellFormed = false ∧
      (Instr.mov (.memory .qword 0x10) (.register .qword 16)).wellFormed = true ∧
      readOperand (.memory .qword 0x10) sample = .error .addressNotPresent ∧
      readOperand (.immediate 1) samplePoisoned = .ok 1#64 ∧ 16 ≤ (16#64).toNat ∧
      operandAddress (.memoryRegister .byte 2) samplePoisoned = .ok 0x1000#64 ∧ samplePoisoned.ctx.memPoisoned = true :=
  ⟨rfl, rfl, rfl, rfl, by decide, rfl, rfl⟩
theorem test_witness_AddToRegister :
    (13#64).toNat < 16 ∧ (14#64).toNat < 16 ∧ (15#64).toNat < 16 ∧ readOperand (.immediate 1) sample = .ok 1#64 ∧
      readOperand (.memory .word 0x1000) sample = .ok 0x5678#64 := ⟨by decide, by decide, by decide, rfl, rfl⟩
/-- The address is register 14, which the flag write changes first (A13's corner). -/
theorem test_witness_AddToMemory :
    readOperand (.immediate 0xFF) sample = .ok 0xFF#64 ∧ readOperand (.immediate 1) sample = .ok 1#64 ∧
      operandAddress (.memoryRegister .byte 14) (addFlag (.memoryRegister .byte 14) 0xFF 1 sample) = .ok 5#64 ∧
      sample.ctx.memPoisoned = false := ⟨rfl, rfl, rfl, rfl⟩
theorem test_witness_AddFailingDestination :
    readOperand (.immediate 1) samplePoisoned = .ok 1#64 ∧ 16 ≤ (16#64).toNat ∧
      operandAddress (.memory .byte 0) (addFlag (.memory .byte 0) 1 1 samplePoisoned) = .ok 0#64 ∧
      samplePoisoned.ctx.memPoisoned = true := ⟨rfl, by decide, rfl, rfl⟩
/-- An ill-shaped Add; one whose sources both fail; one whose value alone does. -/
theorem test_witness_AddFailingReads :
    (Instr.add (.immediate 1) (.immediate 1) (.immediate 1)).wellFormed = false ∧
      (Instr.add (.register .byte 16) (.memory .byte 0x10) (.register .byte 0)).wellFormed = true ∧
      readOperand (.memory .byte 0x10) sample = .error .addressNotPresent ∧
      (Instr.add (.register .byte 16) (.immediate 1) (.register .byte 0)).wellFormed = true ∧
      readOperand (.immediate 1) sample = .ok 1#64 ∧
      readOperand (.register .byte 16) sample = .error .registerIndexOutOfBounds := ⟨rfl, rfl, rfl, rfl, rfl, rfl⟩
theorem test_witness_CmpOutcome :
    readOperand (.register .qword 16) sample = .error .registerIndexOutOfBounds ∧
      readOperand (.memory .qword 0x1000) sample = .error .widthMismatch ∧ readOperand (.immediate 4) sample = .ok 4#64 ∧
      (.register .qword 16 : Operand) ≠ .none := ⟨rfl, rfl, rfl, by decide⟩
theorem test_witness_JmpOutcome :
    readOperand (.memory .byte 0x1001) sample = .error .addressNotPresent ∧ (.memory .byte 0x1001 : Operand) ≠ .none ∧
      readOperand (.register .word 3) sample = .ok 0xFF80#64 := ⟨rfl, by decide, rfl⟩
theorem test_witness_JzOutcome :
    (State.reset.reg 14).getLsbD 0 = false ∧ (sample.reg 14).getLsbD 0 = true ∧ (.register .qword 16 : Operand) ≠ .none ∧
      readOperand (.register .qword 16) sample = .error .registerIndexOutOfBounds ∧
      readOperand (.register .qword 14) sample = .ok 5#64 := ⟨by decide, by decide, by decide, rfl, rfl⟩
theorem test_witness_JnzOutcome :
    (sample.reg 14).getLsbD 0 = true ∧ (State.reset.reg 14).getLsbD 0 = false ∧ (.register .qword 16 : Operand) ≠ .none ∧
      readOperand (.register .qword 16) State.reset = .error .registerIndexOutOfBounds ∧
      readOperand (.immediate 0) State.reset = .ok 0#64 := ⟨by decide, by decide, by decide, rfl, rfl⟩
theorem test_witness_CallZeroDumps : readOperand (.register .word 0) sample = .ok 0#64 := rfl
theorem test_witness_CallUnknownIndex :
    readOperand (.immediate 6) sampleTable = .ok 6#64 ∧ (6#64) ≠ 0#64 ∧ (6#64) ∉ sampleTable.callTable ∧
      (.register .qword 16 : Operand) ≠ .none ∧
      readOperand (.register .qword 16) sampleTable = .error .registerIndexOutOfBounds :=
  ⟨rfl, by decide, by decide, by decide, rfl⟩
/-- A callback that writes the word at 0x1000, reads it back, and returns success only if it read what it wrote (R177). -/
theorem test_callback_reads :
    (callbackRun (.act (.memWrite 0x1000 .word 0xABCD) fun _ => .act (.memRead 0x1000 .word) fun x =>
      .ret (if x = .value 0xABCD then none else some .widthMismatch)) sample).1 = none := by decide
/-- The same read in a poisoned store is answered with the error, and the callback passes it on. -/
theorem test_callback_error :
    (callbackRun (.act (.memRead 0x1000 .word) fun x =>
      .ret (if x = .error .memoryPoisoned then some .memoryPoisoned else none)) samplePoisoned).1 = some .memoryPoisoned := by decide
/-- What the callback does is free, so which of the two results it returns no witness can say. -/
theorem test_witness_CallRunsCallback :
    readOperand (.immediate 5) sampleTable = .ok 5#64 ∧ (5#64) ≠ 0#64 ∧ (5#64) ∈ sampleTable.callTable := ⟨rfl, by decide, by decide⟩
/-- The state is inside a callback; which access comes next is free. For the second part, a callback with an access to come. -/
theorem test_witness_CallbackAccessOutcome :
    let s := (sampleTable.setRun .running).setPhase (.callback 5 0 [.done])
    s.proc.run = .running ∧ s.proc.phase = .callback 5 0 [.done] ∧
      ∃ c next, callbackAfter c [.done] = .act (.memRead 0x1000 .word) next :=
  ⟨rfl, rfl, .act .poisonStream fun _ => .act (.memRead 0x1000 .word) fun _ => .ret none, fun _ => .ret none, rfl⟩
theorem test_witness_IllShapedInstruction :
    (Instr.jnz .none).wellFormed = false ∧ (Instr.add (.register .qword 16) (.immediate 0) .none).wellFormed = false := by decide
/-- J14: a taken Jz with a register index out of range; and a poisoned store. -/
theorem test_witness_ErrorKindsByInstruction :
    ∃ t u, isFaulted sample = false ∧ runsCallback (.jz (.register .qword 16)) sample = false ∧
      exec (.jz (.register .qword 16)) sample = .next t ∧ t.proc.run = .faulted .registerIndexOutOfBounds ∧
      exec (.cmp (.immediate 0) (.memory .byte 0x1000)) samplePoisoned = .next u ∧ u.proc.run = .faulted .memoryPoisoned :=
  ⟨_, _, by decide, by decide, rfl, rfl, rfl, rfl⟩
/-- H8: an Add whose destination write fails after V was written; and one that fails at its first read. -/
theorem test_witness_FailureChangesOnlyOverflow :
    ∃ t u, isFaulted samplePoisoned = false ∧ runsCallback (.add (.immediate 1) (.immediate 2) (.memory .byte 0x10)) samplePoisoned = false ∧
      exec (.add (.immediate 1) (.immediate 2) (.memory .byte 0x10)) samplePoisoned = .next t ∧
      t.proc.run = .faulted .memoryPoisoned ∧ t.flagV = false ∧ samplePoisoned.flagV = true ∧
      exec (.add (.immediate 1) (.memory .byte 0x10) (.memory .byte 0x10)) sample = .next u ∧
      u.proc.run = .faulted .addressNotPresent := ⟨_, _, by decide, by decide, rfl, rfl, by decide, by decide, rfl, rfl⟩
/-- One failing instruction, one that is no transfer, one taken transfer. -/
theorem test_witness_CounterMovesOnce :
    ∃ t u v, isFaulted sample = false ∧ writesRegister (.mov (.immediate 1) (.register .qword 14)) 15 = false ∧
      exec (.jmp (.memory .byte 0)) sample = .next t ∧ isFaulted t = true ∧
      exec (.mov (.immediate 1) (.register .qword 14)) sample = .next u ∧ isFaulted u = false ∧
      takenTarget (.mov (.immediate 1) (.register .qword 14)) sample = none ∧
      exec (.jz (.immediate 0)) sample = .next v ∧ isFaulted v = false ∧ takenTarget (.jz (.immediate 0)) sample = some (.immediate 0) :=
  ⟨_, _, _, by decide, by decide, rfl, by decide, rfl, by decide, by decide, rfl, by decide, by decide⟩
/-- Cmp changes Z and G, Jz clears Z, Add changes V. -/
theorem test_witness_FlagsChangeOnlyAsTabled :
    ∃ t u v, exec (.cmp (.immediate 2) (.immediate 1)) sample = .next t ∧ (t.reg 14).getLsbD 0 ≠ (sample.reg 14).getLsbD 0 ∧
      (t.reg 14).getLsbD 1 ≠ (sample.reg 14).getLsbD 1 ∧
      exec (.jz (.immediate 1)) sample = .next u ∧ (u.reg 14).getLsbD 0 ≠ (sample.reg 14).getLsbD 0 ∧
      exec (.add (.immediate 1) (.immediate 1) (.register .byte 0)) sample = .next v ∧
      (v.reg 14).getLsbD 2 ≠ (sample.reg 14).getLsbD 2 ∧ writesRegister (.add (.immediate 1) (.immediate 1) (.register .byte 0)) 14 = false :=
  ⟨_, _, _, rfl, by decide, by decide, rfl, by decide, rfl, by decide, by decide⟩
theorem test_witness_GeneralRegistersFrame :
    ∃ t, runsCallback (.mov (.immediate 1) (.register .qword 12)) sample = false ∧
      exec (.mov (.immediate 1) (.register .qword 12)) sample = .next t ∧ (13 : Fin 16).val < 14 ∧
      writesRegister (.mov (.immediate 1) (.register .qword 12)) 13 = false := ⟨_, by decide, rfl, by decide, by decide⟩
theorem test_witness_NonStoringFrame :
    ∃ t, runsCallback (.cmp (.immediate 1) (.memory .byte 0x1000)) sample = false ∧
      exec (.cmp (.immediate 1) (.memory .byte 0x1000)) sample = .next t ∧
      storesToMemory (.cmp (.immediate 1) (.memory .byte 0x1000)) = false := ⟨_, by decide, rfl, by decide⟩
/-- A Mov through register 2, an Add through register 14 as the flag write leaves it, and a destination without an address. -/
theorem test_witness_StoringFrame :
    ∃ t u, inMemory (.memoryRegister .qword 2) = true ∧ exec (.mov (.immediate 1) (.memoryRegister .qword 2)) sample = .next t ∧
      operandAddress (.memoryRegister .qword 2) sample = .ok 0x1000#64 ∧
      inMemory (.memoryRegister .byte 14) = true ∧ readOperand (.immediate 1) sample = .ok 1#64 ∧
      exec (.add (.immediate 1) (.immediate 1) (.memoryRegister .byte 14)) sample = .next u ∧
      operandAddress (.memoryRegister .byte 14) (addFlag (.memoryRegister .byte 14) 1 1 sample) = .ok 1#64 ∧
      operandAddress (.memoryRegister .qword 16) sample = .error .registerIndexOutOfBounds ∧
      operandAddress (.memoryRegister .qword 16) (addFlag (.memoryRegister .qword 16) 1 1 sample) = .error .registerIndexOutOfBounds :=
  ⟨_, _, rfl, rfl, rfl, rfl, rfl, rfl, rfl, rfl, rfl⟩
theorem test_witness_StepRunsDecoded :
    sampleStream.proc.run = .running ∧ sampleStream.proc.phase = .boundary ∧ sampleStream.ctx.streamPoisoned = false ∧
      sampleStream.ctx.stream[(sampleStream.reg 15).toNat]? = some (encode (.jz (.immediate 1))) ∧
      decode (encode (.jz (.immediate 1))) = .ok (.jz (.immediate 1)) := by decide
/-- IC at L exactly, and at 2^64 - 1. -/
theorem test_witness_StepHaltsPastTheEnd :
    let s := sampleStream.setReg 15 2
    let u := sampleStream.setReg 15 0xFFFFFFFFFFFFFFFF
    s.proc.run = .running ∧ s.proc.phase = .boundary ∧ s.ctx.streamPoisoned = false ∧ s.ctx.stream.length ≤ (s.reg 15).toNat ∧
      u.ctx.stream.length ≤ (u.reg 15).toNat := by decide
theorem test_witness_StepHaltsPastTheEnd_only :
    ∃ t, (State.reset.setRun .running).proc.run ≠ .halted ∧ step (State.reset.setRun .running) = .next t ∧ t.proc.run = .halted :=
  ⟨_, by decide, rfl, rfl⟩
/-- A taken Jz to an index with an instruction, and one past the end. -/
theorem test_witness_TakenTransferLands :
    takenTarget (.jz (.immediate 1)) sampleStream = some (.immediate 1) ∧ readOperand (.immediate 1) sampleStream = .ok 1#64 ∧
      sampleStream.proc.run = .running ∧ sampleStream.proc.phase = .boundary ∧ sampleStream.ctx.streamPoisoned = false ∧
      sampleStream.ctx.stream[(1#64).toNat]? = some (encode (.jz (.immediate 1))) ∧
      decode (encode (.jz (.immediate 1))) = .ok (.jz (.immediate 1)) ∧ sampleStream.ctx.stream.length ≤ (2#64).toNat ∧
      takenTarget (.jmp (.immediate 2)) sampleStream = some (.immediate 2) := ⟨by decide, rfl, by decide, by decide, by decide, by decide, by decide, by decide, by decide⟩
theorem test_witness_StepFetchErrors :
    let p := sampleStream.setStreamPoisoned true
    let b := sampleStream.setStream [0#256, 7#256]
    p.proc.run = .running ∧ p.proc.phase = .boundary ∧ p.ctx.streamPoisoned = true ∧ b.proc.run = .running ∧ b.proc.phase = .boundary ∧
      b.ctx.streamPoisoned = false ∧ b.ctx.stream[(b.reg 15).toNat]? = some 7#256 ∧ decode 7#256 = .error .opcode := by decide
/-- Idle, Running, and Halted with IC at L; a step of a run; the host creates and starts a processor while another runs. -/
theorem test_witness_OnlyStartMakesAProcessorRun :
    ∃ t u v, sample.proc.run = .idle ∧ sampleStream.proc.run = .running ∧
      ((sampleStream.setReg 15 2).setRun .halted).proc.run = .halted ∧ (sampleStream.setReg 15 2).proc.phase = .boundary ∧
      (sampleStream.setReg 15 2).ctx.streamPoisoned = false ∧
      (sampleStream.setReg 15 2).ctx.stream.length ≤ ((sampleStream.setReg 15 2).reg 15).toNat ∧
      step sampleStream = .next t ∧ t.proc.run = .running ∧
      hostAct (.focus 0) (hostCreate sampleStream) = .ok u ∧ hostAct .start u = .ok v ∧ sampleStream.proc ∈ v.proc :: v.others :=
  ⟨_, _, _, by decide, rfl, rfl, by decide, by decide, by decide, rfl, rfl, rfl, rfl, by decide⟩
theorem test_witness_FaultedIsRefused :
    (sample.setRun (.faulted .widthMismatch)).proc.run = .faulted .widthMismatch := by decide
theorem test_witness_StreamAndOthersUntouched :
    ∃ t u, step sampleStream = .next t ∧ accessStep ((samplePoisoned.setStreamPoisoned true).setRun .running) = .next u ∧
      ((samplePoisoned.setStreamPoisoned true).setRun .running).ctx.streamPoisoned = true ∧
      ((samplePoisoned.setStreamPoisoned true).setRun .running).ctx.memPoisoned = true := ⟨_, _, rfl, rfl, rfl, rfl⟩
theorem test_witness_AccessesMakeTheStep : sampleStream.proc.phase = .boundary := by decide
theorem test_witness_StepKeepsInvariant : ∃ t, sampleStream.Inv ∧ step sampleStream = .next t := ⟨_, by decide, rfl⟩
/-- Inside an Add, with the sum still to be written. -/
theorem test_witness_AccessKeepsInvariant :
    ∃ t, ((sample.setRun .running).setPhase (.addWrite (.register .byte 0) 0x12)).Inv ∧
      accessStep ((sample.setRun .running).setPhase (.addWrite (.register .byte 0) 0x12)) = .next t := ⟨_, by decide, rfl⟩
theorem test_witness_HostActKeepsInvariant :
    ∃ t, sample.Inv ∧ hostAct (.memSet 0x1001 .word 0xBEEF) sample = .ok t := ⟨_, by decide, rfl⟩
theorem test_witness_LoadReplacesOnlyTheStream :
    (sample.setStreamPoisoned true).ctx.streamPoisoned = true ∧ sample.ctx.streamPoisoned = false ∧
      [Instr.jmp (.immediate 0)].length < 2 ^ 64 ∧
      ∃ t u : State, hostLoad [.jmp (.immediate 0)] sample = .ok t ∧ u.ctx = t.ctx ∧
        [Instr.jmp (.immediate 0)][(u.reg 15).toNat]? = some (.jmp (.immediate 0)) ∧
        [Instr.jmp (.immediate 0)].length ≤ (t.reg 15).toNat :=
  ⟨by decide, by decide, by decide, sample.setStream [encode (.jmp (.immediate 0))],
    (sample.setStream [encode (.jmp (.immediate 0))]).setReg 15 0, rfl, rfl, rfl, by decide⟩
/-- Two slots, the second Invalid, in a state whose IC is 1. -/
theorem test_witness_LoadImageIsItsSlots :
    let image := List.replicate 32 0#8 ++ List.replicate 32 7#8
    image.length = 32 * 2 ∧ 2 < 2 ^ 64 ∧ sample.ctx.streamPoisoned = false ∧ 1 < 2 ∧ 31 < 32 ∧
      ∃ t u : State, hostLoadImage image sample = .ok t ∧ u.ctx = t.ctx ∧ (u.reg 15).toNat = 1 ∧
        decode (imageSlot image 1) = .error .reserved :=
  ⟨by decide, by decide, rfl, by decide, by decide, sample.setStream (imageSlots (List.replicate 32 0#8 ++ List.replicate 32 7#8)),
    (sample.setStream (imageSlots (List.replicate 32 0#8 ++ List.replicate 32 7#8))).setReg 15 1, rfl, rfl, rfl, by decide⟩
theorem test_witness_HostSetThenGet :
    (15#64).toNat < 16 ∧ sample.proc.run ≠ .running ∧ (0xFFFF#64).toNat < 2 ^ (8 * widthBytes .word) := by decide
/-- Both ends of the range at Byte. -/
theorem test_witness_SignedViewIsTwosComplement :
    (15#64).toNat < 16 ∧ sample.proc.run ≠ .running ∧ -(2 ^ (8 * widthBytes .byte - 1)) ≤ (-128 : Int) ∧
      (-128 : Int) < 2 ^ (8 * widthBytes .byte - 1) ∧ (127 : Int) < 2 ^ (8 * widthBytes .byte - 1) ∧
      -(2 ^ (8 * widthBytes .byte - 1)) ≤ (127 : Int) := by decide
theorem test_witness_FloatViewMovesBits : (3#64).toNat < 16 ∧ sample.proc.run ≠ .running := by decide
theorem test_witness_RunningRefusesRegisterAccess : (sample.setRun .running).proc.run = .running := by decide
theorem test_witness_FocusIsUndone : ∃ t, hostFocus 0 (hostCreate sample) = .ok t := ⟨_, rfl⟩
theorem test_witness_StatusCodes :
    (sample.setRun .halted).proc.run = .halted ∧ sample.proc.run = .idle ∧ (sample.setRun .running).proc.run = .running ∧
      (sample.setRun (.faulted .illegalInstruction)).proc.run = .faulted .illegalInstruction := by decide

end Sys2Proof.Tests
end

section
/-! PROOFS. The register bank's accessors (10_state.md R24, R25). -/

namespace Sys2Proof.Machine

/-- The register that `RegWrite` changes, bit by bit (R25). -/
theorem getLsbD_reg_setReg_insertLow (w : Width) (s : State) (i : Fin 16) (v : U64) (k : Nat) :
    ((s.setReg i (insertLow w (s.reg i) v)).reg i).getLsbD k =
      if k < widthBits w then v.getLsbD k else (s.reg i).getLsbD k := by
  rw [reg_setReg_same, getLsbD_insertLow]

/-- Settles O6: the write is one `setReg` of the old value with its low `w` bytes replaced. -/
theorem regWriteKeepsHighBytes : Obligations.RegWriteKeepsHighBytes := by
  intro w i v s
  refine ⟨regWrite_out w i v s, fun h => ⟨_, regWrite_in w i v s h, setReg_eq_setRegs s _ _, ?others, ?bits⟩⟩
  case others =>
    intro j hj
    exact reg_setReg_ne s _ j _ (Fin.ne_of_val_ne hj)
  case bits =>
    intro k _
    exact getLsbD_reg_setReg_insertLow w s ⟨i.toNat, h⟩ v k

/-- Settles O5: the read is the register cut to the width. -/
theorem regReadIsLowBytes : Obligations.RegReadIsLowBytes := by
  intro w i s
  exact ⟨regRead_out w i s, fun h => ⟨_, regRead_in w i s h, toNat_cut w (s.reg ⟨i.toNat, h⟩)⟩⟩

end Sys2Proof.Machine
end

section
/-! PROOFS. Writes to the memory store (20_memory.md R53). -/

namespace Sys2Proof.Machine

/-- Settles O9: the write is one `Memory.put` of the value's low bytes, which determines the cell under every key. -/
theorem memWriteReplacesTheCell : Obligations.MemWriteReplacesTheCell := by
  intro addr w v s
  rcases memWrite_cases addr w v s with ⟨hp, hw⟩ | ⟨hp, hw⟩
  case inl => exact ⟨fun _ => hw, by simp [hp]⟩
  case inr =>
    refine ⟨by simp [hp], fun _ => ⟨_, bytesOfValue w v, hw, rfl, ?cell, ?length, ?bytes, ?others⟩⟩
    case cell => exact cell_put_same addr.toNat (bytesOfValue w v) s.ctx.mem
    case length => exact length_bytesOfValue w v
    case bytes =>
      intro k hk
      exact getElem?_bytesOfValue w v k hk
    case others =>
      intro b hb
      exact cell_put_ne addr.toNat b (bytesOfValue w v) s.ctx.mem hb

end Sys2Proof.Machine
end

section
/-! PROOFS. The operand resolver (40_operands.md R112 to R116, R120). -/

namespace Sys2Proof.Machine

/-! ### Reads of the memory store (20_memory.md R52, R56) -/

/-- The low bytes of a little-endian number are the number modulo a power of 256. -/
theorem natOfBytes_take (n : Nat) (bs : List Byte) : natOfBytes (bs.take n) = natOfBytes bs % 256 ^ n := by
  induction n generalizing bs with
  | zero => simp [natOfBytes, Nat.mod_one]
  | succ n ih =>
    cases bs with
    | nil => simp [natOfBytes]
    | cons b bs =>
      have hb : b.toNat < 256 := b.isLt
      have low : (b.toNat + 256 * natOfBytes bs) % 256 = b.toNat := by omega
      have high : (b.toNat + 256 * natOfBytes bs) / 256 = natOfBytes bs := by omega
      simp only [List.take_succ_cons, natOfBytes, ih]
      rw [Nat.pow_succ', Nat.mod_mul, low, high]

theorem toNat_valueOfBytes_take_width (w : Width) (bs : List Byte) :
    (valueOfBytes (bs.take (widthBytes w))).toNat = natOfBytes bs % 2 ^ widthBits w := by
  have fits : natOfBytes bs % 2 ^ widthBits w < 2 ^ 64 :=
    calc natOfBytes bs % 2 ^ widthBits w < 2 ^ widthBits w := Nat.mod_lt _ (Nat.two_pow_pos _)
      _ ≤ 2 ^ 64 := Nat.pow_le_pow_right (by decide) (widthBits_le w)
  rw [valueOfBytes, BitVec.toNat_ofNat, natOfBytes_take, pow_256_widthBytes, Nat.mod_eq_of_lt fits]

theorem memRead_poisoned {a : U64} {w : Width} {s : State} (hp : s.ctx.memPoisoned = true) :
    memRead a w s = .error .memoryPoisoned := by simp [memRead, hp]

theorem memRead_absent {a : U64} {w : Width} {s : State} (hp : s.ctx.memPoisoned = false)
    (hc : Memory.cell a.toNat s.ctx.mem = none) : memRead a w s = .error .addressNotPresent := by
  simp [memRead, hp, hc]

theorem memRead_short {a : U64} {w : Width} {s : State} {bs : List Byte} (hp : s.ctx.memPoisoned = false)
    (hc : Memory.cell a.toNat s.ctx.mem = some bs) (hl : bs.length < widthBytes w) :
    memRead a w s = .error .widthMismatch := by
  simp [memRead, hp, hc, hl]

theorem memRead_present {a : U64} {w : Width} {s : State} {bs : List Byte} (hp : s.ctx.memPoisoned = false)
    (hc : Memory.cell a.toNat s.ctx.mem = some bs) (hl : widthBytes w ≤ bs.length) :
    memRead a w s = .ok (valueOfBytes (bs.take (widthBytes w))) := by
  simp [memRead, hp, hc, Nat.not_lt.mpr hl]

/-! ### Operands -/

theorem readOperand_register (w : Width) (i : U64) (s : State) : readOperand (.register w i) s = regRead w i s := rfl

theorem writeOperand_memoryRegister_in (w : Width) (i v : U64) (s : State) (h : i.toNat < 16) :
    writeOperand (.memoryRegister w i) v s = memWrite (s.reg ⟨i.toNat, h⟩) w v s := by
  simp [writeOperand, operandAddress, regRead_in _ _ _ h]

theorem writeOperand_memoryRegister_out (w : Width) (i v : U64) (s : State) (h : 16 ≤ i.toNat) :
    writeOperand (.memoryRegister w i) v s = .error .registerIndexOutOfBounds := by
  simp [writeOperand, operandAddress, regRead_out _ _ _ h]

/-- Settles O12: a register operand is a register read, a Memory operand a memory read, and the checks of the latter come
in the order of R52. -/
theorem operandReadsByKind : Obligations.OperandReadsByKind := by
  refine ⟨?immediate, ?register, ?memory⟩
  case immediate =>
    intro v s
    rfl
  case register =>
    intro w i s
    rw [readOperand_register]
    exact regReadIsLowBytes w i s
  case memory =>
    intro w a s
    rw [readOperand_memory]
    refine ⟨memRead_absent, fun bs hc => ⟨fun hp => memRead_short hp hc, fun hl => ⟨memRead_poisoned, fun hp => ?_⟩⟩⟩
    exact ⟨_, memRead_present hp hc hl, toNat_valueOfBytes_take_width w bs⟩

/-- Settles O13: the address is a QWord read of the register, which cuts nothing off; the write then touches the store only. -/
theorem registerIndirectUsesWholeRegister : Obligations.RegisterIndirectUsesWholeRegister := by
  intro w i v s
  refine ⟨?out, ?inside⟩
  case out =>
    intro h
    exact ⟨readOperand_memoryRegister_out w i s h, writeOperand_memoryRegister_out w i v s h⟩
  case inside =>
    intro h
    refine ⟨readOperand_memoryRegister_in w i s h, writeOperand_memoryRegister_in w i v s h, fun t ht => ?_⟩
    obtain ⟨_, -, rfl⟩ := writeOperand_memory rfl ht
    exact setMem_proc s _

end Sys2Proof.Machine
end

section
/-! PROOFS. What a step at the top of an instruction runs, and the one way a run ends successfully (41_engine.md R130 to R133). -/

namespace Sys2Proof.Machine

/-! ### Answers that do not end a run successfully -/

/-- `r` does not end a run successfully: a next state it answers has the run state `run`, or is the state of an error. -/
def NoHalt (run : RunState) (r : Result) : Prop :=
  ∀ t, r = .next t → t.proc.run = run ∨ ∃ k, t.proc.run = .faulted k

namespace NoHalt

variable {run : RunState} {s : State}

theorem next (h : s.proc.run = run) : NoHalt run (.next s) := by
  rintro _ ⟨⟩
  exact .inl h

theorem abort (k : ErrKind) (s : State) : NoHalt run (abort k s) := by
  rintro _ ⟨⟩
  exact .inr ⟨k, rfl⟩

theorem advance (h : s.proc.run = run) : NoHalt run (advance s) := next h

theorem jumpTo (target : U64) (h : s.proc.run = run) : NoHalt run (jumpTo target s) := next h

theorem shaped {sources dests : List Operand} {body : Result} (h : NoHalt run body) : NoHalt run (shaped sources dests s body) := by
  cases hw : sources.all readable && dests.all writable with
  | true => exact shaped_ok hw ▸ h
  | false => exact shaped_bad hw ▸ abort _ s

theorem resolve {op : Operand} {rest : U64 → Result} (h : ∀ v, NoHalt run (rest v)) : NoHalt run (resolve op s rest) := by
  cases hr : readOperand op s with
  | ok v => exact resolve_ok rest hr ▸ h v
  | error k => exact resolve_error rest hr ▸ abort k s

theorem store {op : Operand} {v : U64} (h : s.proc.run = run) : NoHalt run (store op v s) := by
  cases hw : writeOperand op v s with
  | ok t => exact store_ok hw ▸ advance ((writeOperand_keeps hw).1.trans h)
  | error k => exact store_error hw ▸ abort k s

theorem callbackReturn {result : Option ErrKind} (h : s.proc.run = run) : NoHalt run (callbackReturn result s) := by
  cases result with
  | none => exact advance h
  | some k => exact abort k s

theorem callbackFinish {c : CallbackTree} (h : s.proc.run = run) : NoHalt run (callbackFinish c s) :=
  callbackReturn (((ActKeeps.refl s).run_all c).run.trans h)

/-- The choice of Call between the dump, a registered callback and the error (46_call.md R175). -/
theorem callChoice {n : U64} {dumped called : Result} (hd : NoHalt run dumped) (hc : NoHalt run called) :
    NoHalt run (if n = 0#64 then dumped else if n ∈ s.callTable then called else Machine.abort .callIndexUnknown s) := by
  split
  · exact hd
  · split
    · exact hc
    · exact abort _ s

end NoHalt

/-! ### No instruction and no access inside one halts -/

theorem execJmp_noHalt (src : Operand) (s : State) : NoHalt s.proc.run (execJmp src s) :=
  .shaped (.resolve fun v => .jumpTo v rfl)

theorem execJz_noHalt (src : Operand) (s : State) : NoHalt s.proc.run (execJz src s) := by
  refine .shaped ?_
  split
  · exact .resolve fun v => .jumpTo v rfl
  · exact .advance rfl

theorem execJnz_noHalt (src : Operand) (s : State) : NoHalt s.proc.run (execJnz src s) := by
  refine .shaped ?_
  split
  · exact .advance rfl
  · exact .resolve fun v => .jumpTo v rfl

theorem exec_noHalt (i : Instr) (s : State) : NoHalt s.proc.run (exec i s) := by
  cases i with
  | call idx => exact .shaped (.resolve fun _ => .callChoice (.advance rfl) (.callbackFinish rfl))
  | mov src dst => exact .shaped (.resolve fun _ => .store rfl)
  | jmp src => exact execJmp_noHalt src s
  | jz src => exact execJz_noHalt src s
  | jnz src => exact execJnz_noHalt src s
  | cmp value comparator => exact .shaped (.resolve fun _ => .resolve fun _ => .advance rfl)
  | add value source dst => exact .shaped (.resolve fun _ => .resolve fun _ => .store rfl)

theorem accessFirst_noHalt (i : Instr) (s : State) : NoHalt s.proc.run (accessFirst i s) := by
  cases i with
  | call idx => exact .shaped (.resolve fun _ => .callChoice (.advance rfl) (.next rfl))
  | mov src dst => exact .shaped (.resolve fun _ => .next rfl)
  | jmp src => exact execJmp_noHalt src s
  | jz src => exact execJz_noHalt src s
  | jnz src => exact execJnz_noHalt src s
  | cmp value comparator => exact .shaped (.resolve fun _ => .next rfl)
  | add value source dst => exact .shaped (.resolve fun _ => .next rfl)

theorem accessAt_noHalt {p : Phase} (s : State) (hp : p ≠ .boundary) : NoHalt s.proc.run (accessAt p s) := by
  cases p with
  | boundary => exact absurd rfl hp
  | decoded i => exact accessFirst_noHalt i s
  | movWrite dst v => exact .store rfl
  | addValue value dst a => exact .resolve fun _ => .next rfl
  | addWrite dst result => exact .store rfl
  | cmpSecond comparator a => exact .resolve fun _ => .advance rfl
  | callback n draw answers =>
    cases hc : callbackAfter (Config.hostCallback n draw) answers with
    | ret result => exact accessAt_callback_ret s hc ▸ .callbackReturn rfl
    | act a rest => exact accessAt_callback_act s hc ▸ .next ((ActKeeps.refl s).act a).run

/-! ### The fetch is what halts -/

theorem fetchThen_outOfRange {s : State} {go : Instr → Result} (h : fetch s = .outOfRange) :
    fetchThen s go = .next (s.setRun .halted) := by simp [fetchThen, h, halt]

theorem fetchThen_instr {s : State} {go : Instr → Result} {i : Instr} (h : fetch s = .instr i) :
    fetchThen s go = go i := by simp [fetchThen, h]

/-- Only a fetch past the end of the stream leads to a halt, when what is done with the instruction does not. -/
theorem fetchThen_noHalt {s : State} {go : Instr → Result} (hgo : ∀ i, NoHalt s.proc.run (go i)) :
    fetch s = .outOfRange ∨ NoHalt s.proc.run (fetchThen s go) := by
  unfold fetchThen
  cases fetch s with
  | poisoned => exact .inr (.abort _ s)
  | outOfRange => exact .inl rfl
  | invalid why => exact .inr (.abort _ s)
  | instr i => exact .inr (hgo i)

/-- Between two instructions of a run a whole step and an access both begin with the fetch, and what they do with the
instruction it finds does not halt. -/
theorem turn_at_boundary {s t : State} (hr : s.proc.run = .running) (hb : s.proc.phase = .boundary)
    (h : step s = .next t ∨ accessStep s = .next t) :
    ∃ go : Instr → Result, (∀ i, NoHalt s.proc.run (go i)) ∧ fetchThen s go = .next t := by
  rcases h with h | h
  · exact ⟨fun i => exec i s, fun i => exec_noHalt i s, step_at_boundary hr hb ▸ h⟩
  · have hs : s.setPhase .boundary = s := hb ▸ setPhase_self s
    rw [accessStep_running hr, hb, hs] at h
    exact ⟨fun i => .next (s.setPhase (.decoded i)), fun i => .next rfl, h⟩

/-- Inside an instruction a whole step is an access, and that does not halt. -/
theorem turn_inside_noHalt {s t : State} (hr : s.proc.run = .running) (hb : s.proc.phase ≠ .boundary)
    (h : step s = .next t ∨ accessStep s = .next t) : t.proc.run = s.proc.run ∨ ∃ k, t.proc.run = .faulted k := by
  rw [step_inside hr hb, or_self, accessStep_running hr] at h
  exact accessAt_noHalt (s.setPhase .boundary) hb t h

/-- A processor that is not running does nothing in its turn. -/
theorem turn_not_running {s t : State} (hr : s.proc.run ≠ .running) (h : step s = .next t ∨ accessStep s = .next t) : t = s := by
  have waits (go : Result) (h : whenRunning s go = .next t) : t = s :=
    (of_whenRunning h).elim (fun ran => absurd ran.1 hr) And.right
  exact h.elim (waits _) (waits _)

/-! ### The step from its fetch (R131, R132) -/

theorem step_past_the_end {s : State} (hr : s.proc.run = .running) (hb : s.proc.phase = .boundary)
    (hp : s.ctx.streamPoisoned = false) (hl : s.ctx.stream.length ≤ (s.reg 15).toNat) : step s = .next (s.setRun .halted) := by
  rw [step_at_boundary hr hb, fetchThen_outOfRange (fetch_outOfRange hp hl)]

theorem step_runs_instr {s : State} {W : Slot} {i : Instr} (hr : s.proc.run = .running) (hb : s.proc.phase = .boundary)
    (hp : s.ctx.streamPoisoned = false) (hW : s.ctx.stream[(s.reg 15).toNat]? = some W) (hd : decode W = .ok i) :
    step s = exec i s := by
  rw [step_at_boundary hr hb, fetchThen_instr (fetch_instr hp hW hd)]

/-! ### The only halt -/

theorem not_halted_of_running_or_faulted {t : State} (h : t.proc.run = .running ∨ ∃ k, t.proc.run = .faulted k) : t.proc.run ≠ .halted := by
  rcases h with e | ⟨k, e⟩ <;> simp [e]

/-- Settles O37: past the end the fetch halts; and of a turn that halts, the processor was running and not inside an instruction,
so the turn began with a fetch, and only one past the end halts. -/
theorem stepHaltsPastTheEnd : Obligations.StepHaltsPastTheEnd := by
  refine ⟨fun s hr hb hp hl => ⟨_, step_past_the_end hr hb hp hl, rfl, rfl⟩, ?only⟩
  case only =>
    intro s t h hs ht
    have hr : s.proc.run = .running := by
      by_contra hr
      exact hs (turn_not_running hr h ▸ ht)
    have hb : s.proc.phase = .boundary := by
      by_contra hb
      exact not_halted_of_running_or_faulted (hr ▸ turn_inside_noHalt hr hb h) ht
    obtain ⟨go, hgo, hf⟩ := turn_at_boundary hr hb h
    rcases fetchThen_noHalt hgo with he | hn
    · obtain ⟨hp, hl⟩ := of_fetch_outOfRange he
      rw [fetchThen_outOfRange he] at hf
      cases hf
      exact ⟨hr, hl, hb, hp, rfl⟩
    · exact absurd ht (not_halted_of_running_or_faulted (hr ▸ hn t hf))

end Sys2Proof.Machine
end

section
/-! PROOFS. Taken transfers (41_engine.md R134, 45_jumps.md R165 to R168). -/

namespace Sys2Proof.Machine

theorem exec_jmp_of_read {src : Operand} {v : U64} {s : State} (h : readOperand src s = .ok v) :
    exec (.jmp src) s = .next (s.setIC v) := by
  simp only [exec, execJmp]
  rw [shaped_ok (by simp [readable_of_read h]), resolve_ok _ h, jumpTo]

theorem exec_jz_taken {src : Operand} {v : U64} {s : State} (hz : s.flagZ = true) (h : readOperand src s = .ok v) :
    exec (.jz src) s = .next ((s.setZ false).setIC v) := by
  simp only [exec, execJz]
  rw [shaped_ok (by simp [readable_of_read h]), if_pos hz, resolve_ok _ h, jumpTo]

theorem exec_jnz_taken {src : Operand} {v : U64} {s : State} (hz : s.flagZ = false) (h : readOperand src s = .ok v) :
    exec (.jnz src) s = .next (s.setIC v) := by
  simp only [exec, execJnz]
  rw [shaped_ok (by simp [readable_of_read h]), if_neg (by simp [hz]), resolve_ok _ h, jumpTo]

/-- The transfers that can be taken, with what Z must be. -/
theorem takenTarget_cases {i : Instr} {src : Operand} {s : State} (h : takenTarget i s = some src) :
    i = .jmp src ∨ (i = .jz src ∧ s.flagZ = true) ∨ (i = .jnz src ∧ s.flagZ = false) := by
  cases i with
  | jmp op => simpa [takenTarget] using h
  | jz op => simpa [takenTarget, and_comm] using h
  | jnz op => simpa [takenTarget, and_comm] using h
  | call _ | mov _ _ | cmp _ _ | add _ _ _ => cases h

/-- A taken transfer writes its target to IC, and before that at most Z. -/
theorem exec_of_takenTarget {i : Instr} {src : Operand} {target : U64} {s : State} (ht : takenTarget i s = some src)
    (hr : readOperand src s = .ok target) :
    ∃ u, (u = s ∨ u = s.setZ false) ∧ exec i s = .next (u.setIC target) := by
  rcases takenTarget_cases ht with rfl | ⟨rfl, hz⟩ | ⟨rfl, hz⟩
  · exact ⟨s, .inl rfl, exec_jmp_of_read hr⟩
  · exact ⟨s.setZ false, .inr rfl, exec_jz_taken hz hr⟩
  · exact ⟨s, .inl rfl, exec_jnz_taken hz hr⟩

/-- Settles O38: the state after a taken transfer holds the target in register 15 and the old stream, so its next fetch is at the
target. -/
theorem takenTransferLands : Obligations.TakenTransferLands := by
  intro i src target s ht hr
  obtain ⟨u, hu, he⟩ := exec_of_takenTarget ht hr
  have hland : (u.setIC target).reg 15 = target := setIC_ic u target
  obtain ⟨hrun, hphase, hctx⟩ : u.proc.run = s.proc.run ∧ u.proc.phase = s.proc.phase ∧ u.ctx = s.ctx := by
    rcases hu with rfl | rfl <;> exact ⟨rfl, rfl, rfl⟩
  refine ⟨u.setIC target, he, hland, hrun, hctx, fun hsr hsb hsp => ?_⟩
  have hr' : (u.setIC target).proc.run = .running := hrun.trans hsr
  have hb' : (u.setIC target).proc.phase = .boundary := hphase.trans hsb
  rw [← hctx] at hsp ⊢
  constructor
  · intro hl
    exact step_past_the_end hr' hb' hsp (hland.symm ▸ hl)
  · intro W j hW hd
    exact step_runs_instr hr' hb' hsp (hland.symm ▸ hW) hd

end Sys2Proof.Machine
end

section
/-! PROOFS. Decode and encode are inverse to each other, and which slots decode rejects (30_encoding.md R84 to R90). -/

namespace Sys2Proof

/-! ### Decode after encode -/

theorem decode_encode (i : Instr) : decode (encode i) = .ok i := by
  cases i <;> simp [encode, decode, decodeF1, decodeF2, decodeF3, decodeOperand_encoded]

/-- A slot is the number of its own 32 bytes. -/
theorem ofBytes_toBytes (W : Slot) : Slot.ofBytes W.toBytes = W := by
  apply BitVec.eq_of_toNat_eq
  have hlt : W.toNat < 256 ^ 32 := W.isLt
  rw [Slot.ofBytes, Slot.toBytes, Machine.natOfBytes_bytesOfNat, Nat.mod_eq_of_lt hlt, BitVec.ofNat_toNat,
    BitVec.setWidth_eq]

theorem length_toBytes (W : Slot) : W.toBytes.length = 32 := Machine.length_bytesOfNat 32 W.toNat

/-- Settles O2: each operand position is read back from the descriptor and payload it was written to. -/
theorem decodeOfEncode : Obligations.DecodeOfEncode := by
  intro i
  have hlen : (encodeBytes i).length = 32 := length_toBytes (encode i)
  refine ⟨decode_encode i, hlen, ?_⟩
  rw [decodeBytes, if_neg (not_not.mpr hlen), encodeBytes, ofBytes_toBytes, decode_encode]

/-! ### One operand position, by the kind in its descriptor (R85, R86) -/

section Kinds

variable {d : Byte} {p : U64}

theorem decodeOperand_topBits (ht : d.extractLsb' 5 3 ≠ 0#3) : decodeOperand d p = .error .descriptorBits := by
  simp [decodeOperand, ht]

variable (ht : d.extractLsb' 5 3 = 0#3)
include ht

theorem decodeOperand_kind0 (hk : d.extractLsb' 0 3 = 0#3) :
    decodeOperand d p =
      if d.extractLsb' 3 2 ≠ 0#2 then .error .widthCode else if p ≠ 0#64 then .error .nonePayload else .ok .none := by
  simp [decodeOperand, ht, hk]

theorem decodeOperand_kind1 (hk : d.extractLsb' 0 3 = 1#3) :
    decodeOperand d p = if d.extractLsb' 3 2 ≠ 0#2 then .error .widthCode else .ok (.immediate p) := by
  simp [decodeOperand, ht, hk]

theorem decodeOperand_kind2 (hk : d.extractLsb' 0 3 = 2#3) :
    decodeOperand d p = .ok (.register (Width.ofCode (d.extractLsb' 3 2)) p) := by simp [decodeOperand, ht, hk]

theorem decodeOperand_kind3 (hk : d.extractLsb' 0 3 = 3#3) :
    decodeOperand d p = .ok (.memory (Width.ofCode (d.extractLsb' 3 2)) p) := by simp [decodeOperand, ht, hk]

theorem decodeOperand_kind4 (hk : d.extractLsb' 0 3 = 4#3) :
    decodeOperand d p = .ok (.memoryRegister (Width.ofCode (d.extractLsb' 3 2)) p) := by simp [decodeOperand, ht, hk]

theorem decodeOperand_kindAbove (hk : 4 < (d.extractLsb' 0 3).toNat) : decodeOperand d p = .error .kind := by
  unfold decodeOperand
  rw [if_neg (not_not.mpr ht)]
  split
  case h_6 => rfl
  all_goals omega

end Kinds

theorem kind_cases (k : BitVec 3) : k = 0#3 ∨ k = 1#3 ∨ k = 2#3 ∨ k = 3#3 ∨ k = 4#3 ∨ 4 < k.toNat := by
  revert k; decide

/-- The conditions 3 to 5 of R90, at one position. -/
def BadPosition (d : Byte) (p : U64) : Prop :=
  (d.extractLsb' 5 3 ≠ 0#3 ∨ 4 < (d.extractLsb' 0 3).toNat) ∨ ((d.extractLsb' 0 3).toNat ≤ 1 ∧ d.extractLsb' 3 2 ≠ 0#2) ∨
    (d.extractLsb' 0 3 = 0#3 ∧ p ≠ 0#64)

/-- The position holds the descriptor and the payload of this operand (R89). -/
def Operand.EncodedAt (a : Operand) (d : Byte) (p : U64) : Prop := a.descriptor = d ∧ a.payload = p

/-- An operand position is bad and does not decode, or it decodes to the operand encoded there. -/
theorem decodeOperand_cases (d : Byte) (p : U64) :
    (BadPosition d p ∧ ∃ r, decodeOperand d p = .error r) ∨
      (¬ BadPosition d p ∧ ∃ a, decodeOperand d p = .ok a ∧ a.EncodedAt d p) := by
  by_cases ht : d.extractLsb' 5 3 = 0#3
  case neg => exact .inl ⟨.inl (.inl ht), _, decodeOperand_topBits ht⟩
  have hd : descriptorByte (d.extractLsb' 3 2) (d.extractLsb' 0 3) = d := (descriptor_of_fields d ht).symm
  have hw := code_ofCode (d.extractLsb' 3 2)
  rcases kind_cases (d.extractLsb' 0 3) with hk | hk | hk | hk | hk | hk
  · by_cases hc : d.extractLsb' 3 2 = 0#2
    · by_cases hp : p = 0#64
      · rw [hc, hk] at hd
        exact .inr ⟨by simp [BadPosition, ht, hk, hc, hp], .none, by simp [decodeOperand_kind0 ht hk, hc, hp], hd, hp.symm⟩
      · exact .inl ⟨.inr (.inr ⟨hk, hp⟩), .nonePayload, by simp [decodeOperand_kind0 ht hk, hc, hp]⟩
    · exact .inl ⟨.inr (.inl ⟨by simp [hk], hc⟩), .widthCode, by simp [decodeOperand_kind0 ht hk, hc]⟩
  · by_cases hc : d.extractLsb' 3 2 = 0#2
    · rw [hc, hk] at hd
      exact .inr ⟨by simp [BadPosition, ht, hk, hc], .immediate p, by simp [decodeOperand_kind1 ht hk, hc], hd, rfl⟩
    · exact .inl ⟨.inr (.inl ⟨by simp [hk], hc⟩), .widthCode, by simp [decodeOperand_kind1 ht hk, hc]⟩
  · rw [← hw, hk] at hd
    exact .inr ⟨by simp [BadPosition, ht, hk], _, decodeOperand_kind2 ht hk, hd, rfl⟩
  · rw [← hw, hk] at hd
    exact .inr ⟨by simp [BadPosition, ht, hk], _, decodeOperand_kind3 ht hk, hd, rfl⟩
  · rw [← hw, hk] at hd
    exact .inr ⟨by simp [BadPosition, ht, hk], _, decodeOperand_kind4 ht hk, hd, rfl⟩
  · exact .inl ⟨.inl (.inr hk), _, decodeOperand_kindAbove ht hk⟩

/-! ### The three formats (R88) -/

/-- Condition 6 of R90, at one position the variant does not have. -/
def UsedPosition (d : Byte) (p : U64) : Prop := d ≠ 0#8 ∨ p ≠ 0#64

theorem unusedOK_cases (d : Byte) (p : U64) :
    (UsedPosition d p ∧ unusedOK d p = false) ∨ (¬ UsedPosition d p ∧ unusedOK d p = true ∧ Operand.none.EncodedAt d p) := by
  by_cases hd : d = 0#8
  · by_cases hp : p = 0#64
    · subst hd hp
      exact .inr ⟨by simp [UsedPosition], rfl, by decide, rfl⟩
    · exact .inl ⟨.inr hp, by simp [unusedOK, hp]⟩
  · exact .inl ⟨.inl hd, by simp [unusedOK, hd]⟩

/-- An all-zero position is a None operand, so none of the conditions 3 to 5 holds of it. -/
theorem usedPosition_of_bad {d : Byte} {p : U64} (h : BadPosition d p) : UsedPosition d p := by
  by_contra hu
  obtain ⟨rfl, rfl⟩ : d = 0#8 ∧ p = 0#64 := by simpa [UsedPosition] using hu
  exact absurd h (by simp [BadPosition])

theorem decodeF1_cases (W : Slot) (mk : Operand → Instr) :
    ((BadPosition W.d0 W.p0 ∨ UsedPosition W.d1 W.p1 ∨ UsedPosition W.d2 W.p2) ∧ ∃ r, decodeF1 W mk = .error r) ∨
      (¬ (BadPosition W.d0 W.p0 ∨ UsedPosition W.d1 W.p1 ∨ UsedPosition W.d2 W.p2) ∧ ∃ a, decodeF1 W mk = .ok (mk a) ∧
        a.EncodedAt W.d0 W.p0 ∧ Operand.none.EncodedAt W.d1 W.p1 ∧ Operand.none.EncodedAt W.d2 W.p2) := by
  unfold decodeF1
  rcases unusedOK_cases W.d1 W.p1 with ⟨h1, e1⟩ | ⟨h1, e1, n1⟩
  · exact .inl ⟨.inr (.inl h1), .unusedPosition, by simp [e1]⟩
  rcases unusedOK_cases W.d2 W.p2 with ⟨h2, e2⟩ | ⟨h2, e2, n2⟩
  · exact .inl ⟨.inr (.inr h2), .unusedPosition, by simp [e2]⟩
  rcases decodeOperand_cases W.d0 W.p0 with ⟨h0, r, e0⟩ | ⟨h0, a, e0, n0⟩
  · exact .inl ⟨.inl h0, r, by simp [e0, e1, e2]⟩
  · exact .inr ⟨by simp [h0, h1, h2], a, by simp [e0, e1, e2], n0, n1, n2⟩

theorem decodeF2_cases (W : Slot) (mk : Operand → Operand → Instr) :
    ((BadPosition W.d0 W.p0 ∨ BadPosition W.d1 W.p1 ∨ UsedPosition W.d2 W.p2) ∧ ∃ r, decodeF2 W mk = .error r) ∨
      (¬ (BadPosition W.d0 W.p0 ∨ BadPosition W.d1 W.p1 ∨ UsedPosition W.d2 W.p2) ∧ ∃ a b, decodeF2 W mk = .ok (mk a b) ∧
        a.EncodedAt W.d0 W.p0 ∧ b.EncodedAt W.d1 W.p1 ∧ Operand.none.EncodedAt W.d2 W.p2) := by
  unfold decodeF2
  rcases unusedOK_cases W.d2 W.p2 with ⟨h2, e2⟩ | ⟨h2, e2, n2⟩
  · exact .inl ⟨.inr (.inr h2), .unusedPosition, by simp [e2]⟩
  rcases decodeOperand_cases W.d0 W.p0 with ⟨h0, r, e0⟩ | ⟨h0, a, e0, n0⟩
  · exact .inl ⟨.inl h0, r, by simp [e0, e2]⟩
  rcases decodeOperand_cases W.d1 W.p1 with ⟨h1, r, e1⟩ | ⟨h1, b, e1, n1⟩
  · exact .inl ⟨.inr (.inl h1), r, by simp [e0, e1, e2]⟩
  · exact .inr ⟨by simp [h0, h1, h2], a, b, by simp [e0, e1, e2], n0, n1, n2⟩

theorem decodeF3_cases (W : Slot) (mk : Operand → Operand → Operand → Instr) :
    ((BadPosition W.d0 W.p0 ∨ BadPosition W.d1 W.p1 ∨ BadPosition W.d2 W.p2) ∧ ∃ r, decodeF3 W mk = .error r) ∨
      (¬ (BadPosition W.d0 W.p0 ∨ BadPosition W.d1 W.p1 ∨ BadPosition W.d2 W.p2) ∧ ∃ a b c, decodeF3 W mk = .ok (mk a b c) ∧
        a.EncodedAt W.d0 W.p0 ∧ b.EncodedAt W.d1 W.p1 ∧ c.EncodedAt W.d2 W.p2) := by
  unfold decodeF3
  rcases decodeOperand_cases W.d0 W.p0 with ⟨h0, r, e0⟩ | ⟨h0, a, e0, n0⟩
  · exact .inl ⟨.inl h0, r, by simp [e0]⟩
  rcases decodeOperand_cases W.d1 W.p1 with ⟨h1, r, e1⟩ | ⟨h1, b, e1, n1⟩
  · exact .inl ⟨.inr (.inl h1), r, by simp [e0, e1]⟩
  rcases decodeOperand_cases W.d2 W.p2 with ⟨h2, r, e2⟩ | ⟨h2, c, e2, n2⟩
  · exact .inl ⟨.inr (.inr h2), r, by simp [e0, e1, e2]⟩
  · exact .inr ⟨by simp [h0, h1, h2], a, b, c, by simp [e0, e1, e2], n0, n1, n2⟩

/-! ### The whole slot -/

/-- A slot is its eight fields side by side (R84). -/
theorem slot_of_fields (W : Slot) :
    W.p2 ++ W.p1 ++ W.p0 ++ W.rsv ++ W.d2 ++ W.d1 ++ W.d0 ++ W.opcode = W := by
  simp only [Slot.p2, Slot.p1, Slot.p0, Slot.rsv, Slot.d2, Slot.d1, Slot.d0, Slot.opcode]
  simp (disch := decide) only [BitVec.extractLsb'_append_extractLsb'_eq_extractLsb']
  exact BitVec.extractLsb'_eq_self

/-- A slot with these operands at its three positions is the one `mkSlot` makes of them. -/
theorem mkSlot_of_encodedAt {W : Slot} {op : Byte} {a b c : Operand} (hr : W.rsv = 0#32) (ho : W.opcode = op)
    (ha : a.EncodedAt W.d0 W.p0) (hb : b.EncodedAt W.d1 W.p1) (hc : c.EncodedAt W.d2 W.p2) : mkSlot op a b c = W := by
  unfold mkSlot
  rw [ha.1, ha.2, hb.1, hb.2, hc.1, hc.2, ← ho, ← hr]
  exact slot_of_fields W

/-- The six conditions of R90, 3 to 5 said position by position. -/
def Slot.Malformed (W : Slot) : Prop :=
  6 < W.opcode.toNat ∨ W.rsv ≠ 0#32 ∨ (BadPosition W.d0 W.p0 ∨ BadPosition W.d1 W.p1 ∨ BadPosition W.d2 W.p2) ∨
    (W.opcode.toNat ∈ [0, 2, 3, 4] ∧ UsedPosition W.d1 W.p1) ∨ (W.opcode.toNat ≠ 6 ∧ UsedPosition W.d2 W.p2)

theorem malformed_iff_f1 {W : Slot} (hr : W.rsv = 0#32) (ho : W.opcode.toNat ∈ [0, 2, 3, 4]) :
    W.Malformed ↔ BadPosition W.d0 W.p0 ∨ UsedPosition W.d1 W.p1 ∨ UsedPosition W.d2 W.p2 := by
  have h6 : ¬ 6 < W.opcode.toNat ∧ W.opcode.toNat ≠ 6 := by simp at ho; omega
  have b1 := usedPosition_of_bad (d := W.d1) (p := W.p1)
  have b2 := usedPosition_of_bad (d := W.d2) (p := W.p2)
  unfold Slot.Malformed
  tauto

theorem malformed_iff_f2 {W : Slot} (hr : W.rsv = 0#32) (ho : W.opcode.toNat ∈ [1, 5]) :
    W.Malformed ↔ BadPosition W.d0 W.p0 ∨ BadPosition W.d1 W.p1 ∨ UsedPosition W.d2 W.p2 := by
  have h6 : ¬ 6 < W.opcode.toNat ∧ W.opcode.toNat ≠ 6 ∧ W.opcode.toNat ∉ [0, 2, 3, 4] := by simp at ho ⊢; omega
  have b2 := usedPosition_of_bad (d := W.d2) (p := W.p2)
  unfold Slot.Malformed
  tauto

theorem malformed_iff_f3 {W : Slot} (hr : W.rsv = 0#32) (ho : W.opcode.toNat = 6) :
    W.Malformed ↔ BadPosition W.d0 W.p0 ∨ BadPosition W.d1 W.p1 ∨ BadPosition W.d2 W.p2 := by
  simp [Slot.Malformed, hr, ho]

/-- A slot is malformed and rejected, or it decodes to the instruction whose encoding it is. -/
theorem decode_cases (W : Slot) :
    (W.Malformed ∧ ∃ r, decode W = .error r) ∨ (¬ W.Malformed ∧ ∃ i, decode W = .ok i ∧ encode i = W) := by
  by_cases hr : W.rsv = 0#32
  case neg => exact .inl ⟨.inr (.inl hr), .reserved, by simp [decode, hr]⟩
  have opcode {k : Nat} (hk : W.opcode.toNat = k) : W.opcode = BitVec.ofNat 8 k := by
    rw [← hk, BitVec.ofNat_toNat, BitVec.setWidth_eq]
  have f1 (mk : Operand → Instr) {k : Nat} (hk : W.opcode.toNat = k) (hm : k ∈ [0, 2, 3, 4])
      (he : ∀ a, encode (mk a) = mkSlot (BitVec.ofNat 8 k) a .none .none) :
      (W.Malformed ∧ ∃ r, decodeF1 W mk = .error r) ∨ (¬ W.Malformed ∧ ∃ i, decodeF1 W mk = .ok i ∧ encode i = W) := by
    rw [malformed_iff_f1 hr (hk ▸ hm)]
    refine (decodeF1_cases W mk).imp_right fun ⟨hb, a, e, h0, h1, h2⟩ => ⟨hb, _, e, ?_⟩
    rw [he, mkSlot_of_encodedAt hr (opcode hk) h0 h1 h2]
  have f2 (mk : Operand → Operand → Instr) {k : Nat} (hk : W.opcode.toNat = k) (hm : k ∈ [1, 5])
      (he : ∀ a b, encode (mk a b) = mkSlot (BitVec.ofNat 8 k) a b .none) :
      (W.Malformed ∧ ∃ r, decodeF2 W mk = .error r) ∨ (¬ W.Malformed ∧ ∃ i, decodeF2 W mk = .ok i ∧ encode i = W) := by
    rw [malformed_iff_f2 hr (hk ▸ hm)]
    refine (decodeF2_cases W mk).imp_right fun ⟨hb, a, b, e, h0, h1, h2⟩ => ⟨hb, _, e, ?_⟩
    rw [he, mkSlot_of_encodedAt hr (opcode hk) h0 h1 h2]
  unfold decode
  rw [if_neg (not_not.mpr hr)]
  split
  case h_1 hk => exact f1 .call hk (by decide) fun _ => rfl
  case h_2 hk => exact f2 .mov hk (by decide) fun _ _ => rfl
  case h_3 hk => exact f1 .jmp hk (by decide) fun _ => rfl
  case h_4 hk => exact f1 .jz hk (by decide) fun _ => rfl
  case h_5 hk => exact f1 .jnz hk (by decide) fun _ => rfl
  case h_6 hk => exact f2 .cmp hk (by decide) fun _ _ => rfl
  case h_7 hk =>
    rw [malformed_iff_f3 hr hk]
    refine (decodeF3_cases W .add).imp_right fun ⟨hb, a, b, c, e, h0, h1, h2⟩ => ⟨hb, _, e, ?_⟩
    exact mkSlot_of_encodedAt hr (opcode hk) h0 h1 h2
  case h_8 h0 h1 h2 h3 h4 h5 h6 =>
    have hk : 6 < W.opcode.toNat := by simp only [imp_false] at *; omega
    exact .inl ⟨.inl hk, _, rfl⟩

/-- Settles O3: every field of a slot that decodes is the field of its instruction's encoding. -/
theorem encodeOfDecode : Obligations.EncodeOfDecode := by
  intro W i h
  rcases decode_cases W with ⟨-, r, e⟩ | ⟨-, j, e, he⟩
  · exact absurd (e.symm.trans h) nofun
  · cases e.symm.trans h
    exact he

/-- The conditions 3 to 5 of R90 position by position, and one by one. -/
theorem badPosition_iff (W : Slot) :
    (BadPosition W.d0 W.p0 ∨ BadPosition W.d1 W.p1 ∨ BadPosition W.d2 W.p2) ↔
      (∃ d ∈ [W.d0, W.d1, W.d2], d.extractLsb' 5 3 ≠ 0#3 ∨ 4 < (d.extractLsb' 0 3).toNat) ∨
      (∃ d ∈ [W.d0, W.d1, W.d2], (d.extractLsb' 0 3).toNat ≤ 1 ∧ d.extractLsb' 3 2 ≠ 0#2) ∨
      (∃ q ∈ [(W.d0, W.p0), (W.d1, W.p1), (W.d2, W.p2)], q.1.extractLsb' 0 3 = 0#3 ∧ q.2 ≠ 0#64) := by
  simp only [BadPosition, List.mem_cons, List.not_mem_nil, or_false, exists_eq_or_imp, exists_eq_left]
  rw [iff_eq_eq]
  ac_rfl

/-- Settles O4: a slot is rejected exactly when it is malformed, and an all-zero position meets none of the conditions 3 to 5, so
these may be asked of the positions a variant does not have, too. -/
theorem decodeRejectsExactlyTheInvalid : Obligations.DecodeRejectsExactlyTheInvalid := by
  intro W
  have rejected_iff : (∃ r, decode W = .error r) ↔ W.Malformed := by
    rcases decode_cases W with ⟨hm, r, e⟩ | ⟨hm, i, e, -⟩ <;> simp [hm, e]
  rw [rejected_iff, Slot.Malformed, badPosition_iff]
  simp only [or_assoc, UsedPosition]

theorem decode_eq_of_encode_eq {W : Slot} {i : Instr} (h : encode i = W) : decode W = .ok i := h ▸ decode_encode i

/-- Settles O1: each of the seven numerals is the encoding of its instruction. -/
theorem decodesWordsOfTheSpec : Obligations.DecodesWordsOfTheSpec := by
  unfold Obligations.DecodesWordsOfTheSpec
  refine ⟨?_, ?_, ?_, ?_, ?_, ?_, ?_⟩ <;> exact decode_eq_of_encode_eq (by decide)

end Sys2Proof
end

section
/-! PROOFS. What a read gives after a write, of registers and of the store (10_state.md R26, 20_memory.md R52, R55). -/

namespace Sys2Proof.Machine

/-- Settles O7: the read cuts the register, whose bits below the written width are those of the value. -/
theorem registerViewsAlias : Obligations.RegisterViewsAlias := by
  intro w1 w2 i v s t h ht
  rw [regWrite_in w1 i v s h] at ht
  cases ht
  refine ⟨_, regRead_in w2 i _ h, fun k _ => ?_⟩
  rw [getLsbD_cut, getLsbD_reg_setReg_insertLow]
  change _ = if k < widthBits w2 then (if k < widthBits w1 then _ else _) else false
  by_cases hk : k < widthBits w2 <;> simp [hk]

/-- The bits of the value read from a cell (R52, R56). -/
theorem getLsbD_valueOfBytes_take (w : Width) (bs : List Byte) (k : Nat) :
    (valueOfBytes (bs.take (widthBytes w))).getLsbD k =
      (decide (k < widthBits w) && (bs.getD (k / 8) 0#8).getLsbD (k % 8)) := by
  rw [BitVec.getLsbD, toNat_valueOfBytes_take_width, Nat.testBit_mod_two_pow, testBit_natOfBytes]

/-- Settles O8: the four outcomes of a read, and the bits of what the last one gives. -/
theorem memReadIsExactKeyed : Obligations.MemReadIsExactKeyed := by
  intro addr w s
  refine ⟨memRead_poisoned, memRead_absent, fun c => memRead_short, fun c hp hc hl => ?_⟩
  exact ⟨_, memRead_present hp hc hl, fun k _ => getLsbD_valueOfBytes_take w c k⟩

/-- A read depends on the poison flag and the one cell. -/
theorem memRead_congr {a : U64} {w : Width} {s t : State} (hp : t.ctx.memPoisoned = s.ctx.memPoisoned)
    (hc : Memory.cell a.toNat t.ctx.mem = Memory.cell a.toNat s.ctx.mem) : memRead a w t = memRead a w s := by
  simp only [memRead, hp, hc]

/-- Settles O10: the written cell holds the value's low bytes, and no other cell has changed. -/
theorem memReadAfterWrite : Obligations.MemReadAfterWrite := by
  intro a b w1 w2 v s t ht
  rcases memWrite_cases a w1 v s with ⟨-, e⟩ | ⟨hp, e⟩ <;> rw [e] at ht <;> cases ht
  have hcell := cell_put_same a.toNat (bytesOfValue w1 v) s.ctx.mem
  refine ⟨fun hl => ⟨cut w2 v, ?_, toNat_cut w2 v⟩, fun hl => ?_, fun hb => ?_⟩
  · rw [← valueOfBytes_take w1 w2 v hl]
    exact memRead_present hp hcell (by simpa using hl)
  · exact memRead_short hp hcell (by simpa using hl)
  · have hne : b.toNat ≠ a.toNat := fun e => hb (BitVec.eq_of_toNat_eq e)
    exact memRead_congr rfl (cell_put_ne a.toNat b.toNat (bytesOfValue w1 v) s.ctx.mem hne)

end Sys2Proof.Machine
end

section
/-! PROOFS. What every instruction, step and access keeps: a property that the elementary updates of the state keep is kept by all of them
(41_engine.md R131, 20_memory.md R55, R69), and the invariant. -/

namespace Sys2Proof.Machine

/-! ### Properties that the elementary updates keep -/

/-- Every next state that `r` answers has the property. -/
def Leads (P : State → Prop) (r : Result) : Prop := ∀ t, r = .next t → P t

theorem leads_next {P : State → Prop} {s : State} (h : P s) : Leads P (.next s) := by
  rintro _ ⟨⟩
  exact h

theorem leads_shaped {P : State → Prop} {s : State} {sources dests : List Operand} {body : Result}
    (hk : ∀ k, P (s.setRun (.faulted k))) (hb : (sources.all readable && dests.all writable) = true → Leads P body) :
    Leads P (shaped sources dests s body) := by
  cases hw : sources.all readable && dests.all writable with
  | true => exact shaped_ok hw ▸ hb hw
  | false => exact shaped_bad hw ▸ leads_next (hk _)

theorem leads_resolve {P : State → Prop} {s : State} {op : Operand} {rest : U64 → Result}
    (hk : ∀ k, P (s.setRun (.faulted k))) (hr : ∀ v, Leads P (rest v)) : Leads P (resolve op s rest) := by
  cases ho : readOperand op s with
  | ok v => exact resolve_ok rest ho ▸ hr v
  | error k => exact resolve_error rest ho ▸ leads_next (hk k)

theorem leads_callChoice {P : State → Prop} {s : State} {n : U64} {called : Result} (hk : ∀ k, P (s.setRun (.faulted k)))
    (hd : Leads P (advance (dump s))) (hc : Leads P called) :
    Leads P (if n = 0#64 then advance (dump s) else if n ∈ s.callTable then called else abort .callIndexUnknown s) := by
  split
  · exact hd
  · split
    · exact hc
    · exact leads_next (hk _)

/-- No elementary update of an instruction spoils the property. -/
structure Stable (P : State → Prop) : Prop where
  fail : ∀ {s} k, P s → P (s.setRun (.faulted k))
  regs : ∀ {s} r, P s → P (s.setRegs r)
  write : ∀ {s} (a : U64) (w : Width) (v : U64), P s → P (s.setMem (Memory.put a.toNat (bytesOfValue w v) s.ctx.mem))
  dumps : ∀ {s} l, P s → P (s.setDumps l)
  draws : ∀ {s} n, P s → P (s.setDraws n)
  poisonMemory : ∀ {s}, P s → P (s.setMemPoisoned true)
  poisonStream : ∀ {s}, P s → P (s.setStreamPoisoned true)

namespace Stable

variable {P : State → Prop} {s t : State} (h : Stable P)
include h

theorem setReg (i : Fin 16) (v : U64) (hs : P s) : P (s.setReg i v) := h.regs _ hs

theorem writeOperand {op : Operand} {v : U64} (hs : P s) (hw : writeOperand op v s = .ok t) : P t := by
  rcases writeOperand_cases op v s with ⟨_, e⟩ | ⟨w, i, hi, _, e⟩ | ⟨a, _, _, e⟩ | ⟨_, e | ⟨_, e⟩⟩ <;> rw [hw] at e <;>
    cases e
  · exact h.setReg _ _ hs
  · exact h.write a _ v hs

theorem callbackAct (a : CallbackAct) (hs : P s) : P (callbackAct a s).2 := by
  rcases callbackAct_cases a s with e | ⟨i, v, e⟩ | ⟨addr, w, v, e⟩ | e | e <;> rw [e]
  · exact hs
  · exact h.setReg i v hs
  · exact h.write addr w v hs
  · exact h.poisonMemory hs
  · exact h.poisonStream hs

variable (hs : P s)
include hs

theorem abort (k : ErrKind) : Leads P (abort k s) := leads_next (h.fail k hs)

theorem advance : Leads P (advance s) := leads_next (h.setReg 15 _ hs)

theorem jumpTo (target : U64) : Leads P (jumpTo target s) := leads_next (h.setReg 15 target hs)

theorem shaped {sources dests : List Operand} {body : Result} (hb : Leads P body) : Leads P (shaped sources dests s body) :=
  leads_shaped (fun k => h.fail k hs) fun _ => hb

theorem resolve {op : Operand} {rest : U64 → Result} (hr : ∀ v, Leads P (rest v)) : Leads P (resolve op s rest) :=
  leads_resolve (fun k => h.fail k hs) hr

theorem store {op : Operand} {v : U64} : Leads P (store op v s) := by
  cases hw : Machine.writeOperand op v s with
  | ok t => exact store_ok hw ▸ h.advance (h.writeOperand hs hw)
  | error k => exact store_error hw ▸ h.abort hs k

theorem callbackReturn (result : Option ErrKind) : Leads P (callbackReturn result s) := by
  cases result with
  | none => exact h.advance hs
  | some k => exact h.abort hs k

theorem callbackFinish (c : CallbackTree) : Leads P (callbackFinish c s) :=
  h.callbackReturn (callbackRun_keep P (fun a _ => h.callbackAct a) c s hs) _

theorem callChoice {n : U64} {called : Result} (hc : Leads P called) :
    Leads P (if n = 0#64 then Machine.advance (dump s) else if n ∈ s.callTable then called else Machine.abort .callIndexUnknown s) :=
  leads_callChoice (fun k => h.fail k hs) (h.advance (h.dumps _ hs)) hc

theorem execJmp (src : Operand) : Leads P (execJmp src s) := h.shaped hs (h.resolve hs (h.jumpTo hs))

theorem execJz (src : Operand) : Leads P (execJz src s) := by
  refine h.shaped hs ?_
  split
  · exact h.resolve hs (h.jumpTo (h.setReg 14 _ hs))
  · exact h.advance hs

theorem execJnz (src : Operand) : Leads P (execJnz src s) := by
  refine h.shaped hs ?_
  split
  · exact h.advance hs
  · exact h.resolve hs (h.jumpTo hs)

theorem cmpFinish (a b : U64) : Leads P (cmpFinish a b s) := h.advance (h.setReg 14 _ (h.setReg 14 _ hs))

theorem exec (i : Instr) : Leads P (exec i s) := by
  cases i with
  | call idx => exact h.shaped hs (h.resolve hs fun n => h.callChoice hs (h.callbackFinish (h.draws _ hs) _))
  | mov src dst => exact h.shaped hs (h.resolve hs fun v => h.store hs)
  | jmp src => exact h.execJmp hs src
  | jz src => exact h.execJz hs src
  | jnz src => exact h.execJnz hs src
  | cmp value comparator => exact h.shaped hs (h.resolve hs fun a => h.resolve hs fun b => h.cmpFinish hs a b)
  | add value source dst => exact h.shaped hs (h.resolve hs fun a => h.resolve hs fun b => h.store (h.setReg 14 _ hs))

variable (hphase : ∀ {s : State} p, P s → P (s.setPhase p))
include hphase

theorem accessFirst (i : Instr) : Leads P (accessFirst i s) := by
  cases i with
  | call idx => exact h.shaped hs (h.resolve hs fun n => h.callChoice hs (leads_next (hphase _ (h.draws _ hs))))
  | mov src dst => exact h.shaped hs (h.resolve hs fun v => leads_next (hphase _ hs))
  | jmp src => exact h.execJmp hs src
  | jz src => exact h.execJz hs src
  | jnz src => exact h.execJnz hs src
  | cmp value comparator => exact h.shaped hs (h.resolve hs fun a => leads_next (hphase _ hs))
  | add value source dst => exact h.shaped hs (h.resolve hs fun a => leads_next (hphase _ hs))

variable (hhalt : ∀ {s : State}, P s → P (s.setRun .halted))
include hhalt

omit hphase in
theorem fetchThen {go : Instr → Result} (hgo : ∀ i, Leads P (go i)) : Leads P (fetchThen s go) := by
  unfold Machine.fetchThen
  cases fetch s with
  | poisoned => exact h.abort hs _
  | outOfRange => exact leads_next (hhalt hs)
  | invalid why => exact h.abort hs _
  | instr i => exact hgo i

theorem accessAt (p : Phase) : Leads P (accessAt p s) := by
  cases p with
  | boundary => exact h.fetchThen hs hhalt fun i => leads_next (hphase _ hs)
  | decoded i => exact h.accessFirst hs hphase i
  | movWrite dst v => exact h.store hs
  | addValue value dst a => exact h.resolve hs fun b => leads_next (hphase _ (h.setReg 14 _ hs))
  | addWrite dst result => exact h.store hs
  | cmpSecond comparator a => exact h.resolve hs fun b => h.cmpFinish hs a b
  | callback n draw answers =>
    cases hc : callbackAfter (Config.hostCallback n draw) answers with
    | ret result => exact accessAt_callback_ret s hc ▸ h.callbackReturn hs result
    | act a rest => exact accessAt_callback_act s hc ▸ leads_next (hphase _ (h.callbackAct a hs))

theorem accessStep : Leads P (accessStep s) := by
  intro t ht
  rcases of_whenRunning ht with ⟨-, hgo⟩ | ⟨-, rfl⟩
  · exact h.accessAt (hphase _ hs) hphase hhalt _ t hgo
  · exact hs

/-- A property that no elementary update spoils holds after every step and every access. -/
theorem turn (ht : step s = .next t ∨ Machine.accessStep s = .next t) : P t := by
  rcases ht with ht | ht
  case inr => exact h.accessStep hs hphase hhalt t ht
  rcases of_whenRunning ht with ⟨-, hgo⟩ | ⟨-, rfl⟩
  case inr => exact hs
  cases hb : s.proc.phase with
  | boundary => exact h.fetchThen hs hhalt (h.exec hs) t (by simpa only [hb] using hgo)
  | _ => exact h.accessStep hs hphase hhalt t (by simpa only [hb] using hgo)

end Stable

/-! ### What no turn of a processor changes, undoes or spoils -/

/-- What a turn leaves alone (20_memory.md R55, R69; 10_state.md R37; 60_exceptions.md R196). -/
structure Keeps (s t : State) : Prop where
  stream : t.ctx.stream = s.ctx.stream
  others : t.others = s.others
  callTable : t.callTable = s.callTable
  streamPoisoned : s.ctx.streamPoisoned = true → t.ctx.streamPoisoned = true
  memPoisoned : s.ctx.memPoisoned = true → t.ctx.memPoisoned = true
  cells : ∀ a, Memory.cell a s.ctx.mem ≠ none → Memory.cell a t.ctx.mem ≠ none
  wf : Memory.wf s.ctx.mem = true → Memory.wf t.ctx.mem = true

theorem Keeps.refl (s : State) : Keeps s s := ⟨rfl, rfl, rfl, id, id, fun _ => id, id⟩

theorem keeps_stable (s : State) : Stable (Keeps s) where
  fail _ h := ⟨h.1, h.2, h.3, h.4, h.5, h.6, h.7⟩
  regs _ h := ⟨h.1, h.2, h.3, h.4, h.5, h.6, h.7⟩
  write a _ _ h := ⟨h.1, h.2, h.3, h.4, h.5, fun b hb => cell_put_present _ _ _ _ (h.cells b hb),
    fun hw => wf_put _ _ _ (h.wf hw) a.isLt (cellSizeOK_bytesOfValue _ _)⟩
  dumps _ h := ⟨h.1, h.2, h.3, h.4, h.5, h.6, h.7⟩
  draws _ h := ⟨h.1, h.2, h.3, h.4, h.5, h.6, h.7⟩
  poisonMemory h := ⟨h.1, h.2, h.3, h.4, fun _ => rfl, h.6, h.7⟩
  poisonStream h := ⟨h.1, h.2, h.3, fun _ => rfl, h.5, h.6, h.7⟩

theorem turn_keeps {s t : State} (ht : step s = .next t ∨ accessStep s = .next t) : Keeps s t :=
  (keeps_stable s).turn (.refl s) (fun _ h => ⟨h.1, h.2, h.3, h.4, h.5, h.6, h.7⟩)
    (fun h => ⟨h.1, h.2, h.3, h.4, h.5, h.6, h.7⟩) ht

/-- Settles O11: the one store update puts a cell, and what is put stays. -/
theorem cellsAreNeverRemoved : Obligations.CellsAreNeverRemoved :=
  fun _ _ a ht => (turn_keeps ht).cells a

/-- Settles O41: five of the things every turn keeps. -/
theorem streamAndOthersUntouched : Obligations.StreamAndOthersUntouched := by
  intro s t ht
  obtain ⟨hstream, hothers, htable, hsp, hmp, -, -⟩ := turn_keeps ht
  exact ⟨hstream, hothers, htable, hsp, hmp⟩

/-! ### The invariant -/

theorem inv_of_keeps {s t : State} (hs : s.Inv) (hk : Keeps s t) (hp : procOK t.proc = true) : t.Inv := by
  obtain ⟨hwf, hlen, -, hothers⟩ := hs
  exact ⟨hk.wf hwf, hk.stream ▸ hlen, hp, hk.others ▸ hothers⟩

theorem phase_stable (p : Phase) : Stable fun u => u.proc.phase = p :=
  ⟨fun _ => id, fun _ => id, fun _ _ _ => id, fun _ => id, fun _ => id, id, id⟩

theorem exec_phase {i : Instr} {s t : State} (h : exec i s = .next t) : t.proc.phase = s.proc.phase :=
  (phase_stable s.proc.phase).exec rfl i t h

theorem procOK_of_boundary {p : Proc} (h : p.phase = .boundary) : procOK p = true := by simp [procOK, phaseOK, h]

theorem procOK_setPhase {s : State} {p : Phase} (hr : s.proc.run = .running) (hp : phaseOK p = true) :
    procOK (s.setPhase p).proc = true := by simp [procOK, hr, hp]

section Access

variable {s : State} (hr : s.proc.run = .running) (hb : s.proc.phase = .boundary)

/-- An answer that ends the instruction leaves the processor well kept. -/
theorem leads_procOK {r : Result} (h : Leads (fun u => u.proc.phase = .boundary) r) : Leads (fun u => procOK u.proc = true) r :=
  fun t ht => procOK_of_boundary (h t ht)

include hr hb

theorem accessFirst_procOK (i : Instr) : Leads (fun u => procOK u.proc = true) (accessFirst i s) := by
  have stable := phase_stable .boundary
  have fails (k : ErrKind) : procOK (s.setRun (.faulted k)).proc = true := procOK_of_boundary hb
  cases i with
  | call idx =>
    refine leads_shaped fails fun _ => leads_resolve fails fun n => leads_callChoice fails ?_ ?_
    · exact leads_procOK (stable.advance (s := dump s) hb)
    · exact leads_next (procOK_setPhase (s := countDraw s) hr rfl)
  | mov src dst =>
    refine leads_shaped fails fun hw => leads_resolve fails fun v => leads_next (procOK_setPhase hr ?_)
    obtain ⟨-, hd⟩ : readable src = true ∧ writable dst = true := by simpa using hw
    exact hd
  | jmp src => exact leads_procOK (stable.execJmp hb src)
  | jz src => exact leads_procOK (stable.execJz hb src)
  | jnz src => exact leads_procOK (stable.execJnz hb src)
  | cmp value comparator =>
    refine leads_shaped fails fun hw => leads_resolve fails fun a => leads_next (procOK_setPhase hr ?_)
    obtain ⟨-, hc⟩ : readable value = true ∧ readable comparator = true := by simpa using hw
    exact hc
  | add value source dst =>
    refine leads_shaped fails fun hw => leads_resolve fails fun a => leads_next (procOK_setPhase hr ?_)
    obtain ⟨⟨hv, -⟩, hd⟩ : (readable value = true ∧ readable source = true) ∧ writable dst = true := by simpa using hw
    simp [phaseOK, hv, hd]

theorem accessAt_procOK {p : Phase} (hp : phaseOK p = true) : Leads (fun u => procOK u.proc = true) (accessAt p s) := by
  have stable := phase_stable .boundary
  have fails (k : ErrKind) : procOK (s.setRun (.faulted k)).proc = true := procOK_of_boundary hb
  cases p with
  | boundary =>
    unfold accessAt fetchThen
    cases fetch s with
    | poisoned => exact leads_next (fails _)
    | outOfRange => exact leads_next (procOK_of_boundary hb)
    | invalid why => exact leads_next (fails _)
    | instr i => exact leads_next (procOK_setPhase hr rfl)
  | decoded i => exact accessFirst_procOK hr hb i
  | movWrite dst v => exact leads_procOK (stable.store hb)
  | addValue value dst a =>
    refine leads_resolve fails fun b => leads_next (procOK_setPhase (s := addFlag dst a b s) hr ?_)
    obtain ⟨-, hd⟩ : readable value = true ∧ writable dst = true := by simpa [phaseOK] using hp
    simp [phaseOK, hd, addResult]
  | addWrite dst result => exact leads_procOK (stable.store hb)
  | cmpSecond comparator a => exact leads_procOK (stable.resolve hb fun b => stable.cmpFinish hb a b)
  | callback n draw answers =>
    cases hc : callbackAfter (Config.hostCallback n draw) answers with
    | ret result => exact accessAt_callback_ret s hc ▸ leads_procOK (stable.callbackReturn hb result)
    | act a rest =>
      refine accessAt_callback_act s hc ▸ leads_next (procOK_setPhase ?_ rfl)
      exact ((ActKeeps.refl s).act a).run.trans hr

end Access

theorem accessStep_procOK {s t : State} (hs : procOK s.proc = true) (h : accessStep s = .next t) : procOK t.proc = true := by
  rcases of_whenRunning h with ⟨hr, hgo⟩ | ⟨-, rfl⟩
  · obtain ⟨hp, -⟩ : phaseOK s.proc.phase = true ∧ _ := by simpa [procOK] using hs
    exact accessAt_procOK (s := s.setPhase .boundary) hr rfl hp t hgo
  · exact hs

theorem step_procOK {s t : State} (hs : procOK s.proc = true) (h : step s = .next t) : procOK t.proc = true := by
  rcases of_whenRunning h with ⟨hr, -⟩ | ⟨-, rfl⟩
  case inr => exact hs
  by_cases hb : s.proc.phase = .boundary
  · have stable := phase_stable .boundary
    rw [step_at_boundary hr hb] at h
    exact procOK_of_boundary (stable.fetchThen hb id (stable.exec hb) t h)
  · exact accessStep_procOK hs (step_inside hr hb ▸ h)

/-- Settles O45: store and stream are kept as in every turn, and the remaining work an access leaves is well shaped. -/
theorem accessKeepsInvariant : Obligations.AccessKeepsInvariant := by
  intro s t hs h
  have ⟨_, _, hp, _⟩ := hs
  exact inv_of_keeps hs (turn_keeps (.inr h)) (accessStep_procOK hp h)

/-- Settles O44: a whole instruction leaves no remaining work, and a step inside one is an access. -/
theorem stepKeepsInvariant : Obligations.StepKeepsInvariant := by
  intro s t hs h
  have ⟨_, _, hp, _⟩ := hs
  exact inv_of_keeps hs (turn_keeps (.inl h)) (step_procOK hp h)

end Sys2Proof.Machine
end

section
/-! PROOFS. Mov and Add (42_mov.md, 43_add.md), and the shape check before every instruction (40_operands.md R121). -/

namespace Sys2Proof.Machine

/-! ### The shape check -/

theorem exec_illShaped {i : Instr} {s : State} (h : i.wellFormed = false) : exec i s = .next (s.setRun (.faulted .invalidOperand)) := by
  cases i <;> exact shaped_bad (by simpa [readable_eq, writable_eq, Instr.wellFormed] using h)

/-- Settles O27: the shape check stands before everything else of each instruction. -/
theorem illShapedInstruction : Obligations.IllShapedInstruction := fun _ _ => exec_illShaped

/-- The shape of an Add, and so the check of its three positions. -/
theorem exec_add_of_shape {value source dst : Operand} {s : State} (h : (Instr.add value source dst).wellFormed = true) :
    exec (.add value source dst) s = resolve source s fun a => resolve value s fun b =>
      store dst (addResult (operandWidth dst) a b) (addFlag dst a b s) :=
  shaped_ok (by simpa [readable_eq, writable_eq, Instr.wellFormed] using h)

theorem exec_mov_of_shape {src dst : Operand} {s : State} (h : (Instr.mov src dst).wellFormed = true) :
    exec (.mov src dst) s = resolve src s fun v => store dst v s :=
  shaped_ok (by simpa [readable_eq, writable_eq, Instr.wellFormed] using h)

/-! ### Writes that fail -/

theorem writable_of_register {dst : Operand} {w : Width} {j : U64} (h : dst = .register w j ∨ dst = .memoryRegister w j) :
    writable dst = true := by rcases h with rfl | rfl <;> rfl

theorem writeOperand_badIndex {dst : Operand} {w : Width} {j v : U64} {s : State} (hj : 16 ≤ j.toNat)
    (h : dst = .register w j ∨ dst = .memoryRegister w j) : writeOperand dst v s = .error .registerIndexOutOfBounds := by
  rcases h with rfl | rfl
  · exact regWrite_out w j v s hj
  · exact writeOperand_memoryRegister_out w j v s hj

theorem writeOperand_poisoned {dst : Operand} {a v : U64} {s : State} (ha : operandAddress dst s = .ok a)
    (hp : s.ctx.memPoisoned = true) : writeOperand dst v s = .error .memoryPoisoned := by
  rcases writeOperand_cases dst v s with ⟨hd, -⟩ | ⟨_, _, _, rfl, -⟩ | ⟨_, -, hn, -⟩ | ⟨-, he | ⟨-, he⟩⟩
  · simp [writable_of_address ha] at hd
  · cases ha
  · simp [hp] at hn
  · cases dst with
    | none | immediate _ | register _ _ => cases ha
    | memory w x | memoryRegister w x => simp [writeOperand, ha, memWrite, hp] at he
  · exact he

/-! ### Mov -/

/-- Settles O57: the four ways a Mov fails, in the order of its lines. -/
theorem movFailures : Obligations.MovFailures := by
  intro src dst s
  refine ⟨exec_illShaped, fun k hw hr => ?read, fun v hr => ⟨fun w j hj hd => ?index, fun a ha hp => ?poison⟩⟩
  case read => rw [exec_mov_of_shape hw, resolve_error _ hr]
  case index => rw [exec_mov_of_read hr (writable_of_register hd), store_error (writeOperand_badIndex hj hd)]
  case poison => rw [exec_mov_of_read hr (writable_of_address ha), store_error (writeOperand_poisoned ha hp)]

/-- Every register after a write of `x` to register `j` and the increment of IC. -/
theorem reg_setReg_advanced (s : State) (i j : Fin 16) (x : U64) :
    ((s.setReg j x).setIC ((s.setReg j x).ic + 1)).reg i =
      if i = 15 then (if j = 15 then x else s.reg 15) + 1 else if i = j then x else s.reg i := by
  simp only [State.setIC, ic_eq_reg, reg_setReg, @eq_comm _ 15 j]

theorem setIC_reg15 (s : State) (v : U64) : (s.setIC v).reg 15 = v := setIC_ic s v

theorem store_register {w : Width} {j v : U64} {s : State} (h : j.toNat < 16) :
    store (.register w j) v s = .next ((s.setReg ⟨j.toNat, h⟩ (insertLow w (s.reg ⟨j.toNat, h⟩) v)).setIC
      ((s.setReg ⟨j.toNat, h⟩ (insertLow w (s.reg ⟨j.toNat, h⟩) v)).ic + 1)) :=
  store_ok (regWrite_in w j v s h)

theorem fin_eq_iff_val {n : Nat} (h : n < 16) (i : Fin 16) : (⟨n, h⟩ : Fin 16) = i ↔ n = i.val := Fin.ext_iff

/-- Settles O14: the write of one register and the increment, register by register. -/
theorem movToRegister : Obligations.MovToRegister := by
  intro src w j v s h hr
  refine ⟨_, (exec_mov_of_read hr rfl).trans (store_register h), rfl, fun i hij hi => ?others, _,
    fun k _ => getLsbD_insertLow w _ v k, ?named⟩
  case others =>
    have hij' : i ≠ ⟨j.toNat, h⟩ := Fin.ne_of_val_ne hij
    rw [reg_setReg_advanced, if_neg hi, if_neg hij']
  case named =>
    simp only [reg_setReg_advanced, fin_eq_iff_val]
    by_cases hj : j.toNat = 15 <;> simp [hj]

/-- Settles O15: the write of one cell and the increment. -/
theorem movToMemory : Obligations.MovToMemory := by
  intro src dst v a s hr ha hp
  refine ⟨_, bytesOfValue (operandWidth dst) v,
    (exec_mov_of_read hr (writable_of_address ha)).trans (store_ok (writeOperand_of_address ha hp)), rfl,
    cell_put_same _ _ _, length_bytesOfValue _ _, fun k hk => getElem?_bytesOfValue _ v k hk, fun b hb => cell_put_ne _ b _ _ hb⟩

/-! ### Add -/

/-- Settles O16: two numbers below 2^N add up to less than 2 * 2^N, so the carry is all that the N-bit result lacks. -/
theorem addIsExactWithCarry : Obligations.AddIsExactWithCarry := by
  intro w a b
  change _ < 2 ^ widthBits w ∧ _ + (if _ then 2 ^ widthBits w else 0) = _ % 2 ^ widthBits w + _ % 2 ^ widthBits w
  have hM : 0 < 2 ^ widthBits w := Nat.two_pow_pos _
  rw [toNat_addResult, addCarry_eq, Nat.add_mod]
  have ha := Nat.mod_lt a.toNat hM
  have hb := Nat.mod_lt b.toNat hM
  generalize a.toNat % 2 ^ widthBits w = x at *
  generalize b.toNat % 2 ^ widthBits w = y at *
  refine ⟨Nat.mod_lt _ hM, ?_⟩
  by_cases hc : 2 ^ widthBits w ≤ x + y
  · rw [Nat.mod_eq_sub_mod hc, Nat.mod_eq_of_lt (by omega)]
    simp [hc]
  · rw [Nat.mod_eq_of_lt (by omega)]
    simp [hc]

/-- Settles O58: the shape check and the two reads stand before the flag line. -/
theorem addFailingReads : Obligations.AddFailingReads := by
  intro value source dst s
  refine ⟨exec_illShaped, fun k hw hs => ?_, fun a k hw hs hv => ?_⟩
  · rw [exec_add_of_shape hw, resolve_error _ hs]
  · rw [exec_add_of_shape hw, resolve_ok _ hs, resolve_error _ hv]

/-- The flag line of Add sets V to the carry, said in numbers. -/
theorem addFlag_eq_setV (dst : Operand) (a b : U64) (s : State) :
    addFlag dst a b s = s.setV (decide (2 ^ (8 * widthBytes (operandWidth dst)) ≤
      a.toNat % 2 ^ (8 * widthBytes (operandWidth dst)) + b.toNat % 2 ^ (8 * widthBytes (operandWidth dst)))) :=
  congrArg s.setV (addCarry_eq _ a b)

/-- Settles O19: the failing write is the last line, and the flag line stands before it. -/
theorem addFailingDestination : Obligations.AddFailingDestination := by
  intro value source dst a b s hs hv
  refine ⟨fun w j hj hd => ?index, fun addr ha hp => ?poison⟩
  case index =>
    have hw : operandWidth dst = w := by rcases hd with rfl | rfl <;> rfl
    rw [exec_add_of_reads hs hv (writable_of_register hd), store_error (writeOperand_badIndex hj hd), addFlag_eq_setV, hw]
  case poison =>
    rw [exec_add_of_reads hs hv (writable_of_address ha), store_error (writeOperand_poisoned ha hp), addFlag_eq_setV]

/-- The flags after the flag line of Add, bit by bit. -/
theorem getLsbD_addFlag (dst : Operand) (a b : U64) (s : State) (k : Nat) :
    ((addFlag dst a b s).reg 14).getLsbD k =
      if k = 2 then decide (2 ^ widthBits (operandWidth dst) ≤
        a.toNat % 2 ^ widthBits (operandWidth dst) + b.toNat % 2 ^ widthBits (operandWidth dst))
      else (s.reg 14).getLsbD k := by
  rw [← addCarry_eq]
  change (addFlag dst a b s).flags.getLsbD k = _
  rw [addFlag, setV_flags]
  exact getLsbD_setBit _ _ _ _ (by decide)

theorem addFlag_eq_setReg (dst : Operand) (a b : U64) (s : State) :
    addFlag dst a b s = s.setReg 14 ((addFlag dst a b s).reg 14) := by
  simp [addFlag, State.setV, State.setFlag]

theorem addFlag_reg (dst : Operand) (a b : U64) (s : State) (i : Fin 16) :
    (addFlag dst a b s).reg i = if i = 14 then (addFlag dst a b s).reg 14 else s.reg i := by
  conv_lhs => rw [addFlag_eq_setReg, reg_setReg]

theorem getLsbD_addResult (w : Width) (a b : U64) (k : Nat) :
    (addResult w a b).getLsbD k = ((a.toNat + b.toNat) % 2 ^ widthBits w).testBit k := by
  rw [BitVec.getLsbD, toNat_addResult]

/-- Settles O17: the flag line, the write of one register over it and the increment, register by register. -/
theorem addToRegister : Obligations.AddToRegister := by
  intro value source w j a b s h hs hv
  refine ⟨_, (exec_add_of_reads hs hv rfl).trans (store_register h), rfl, fun i hij hi14 hi15 => ?others,
    (addFlag (.register w j) a b s).reg 14, insertLow w ((addFlag (.register w j) a b s).reg ⟨j.toNat, h⟩) (addResult w a b),
    fun k _ => getLsbD_addFlag _ a b s k, fun k _ => ?bits, ?flags, ?ic, fun hj => ?named⟩
  case others =>
    have hij' : i ≠ ⟨j.toNat, h⟩ := Fin.ne_of_val_ne hij
    rw [reg_setReg_advanced, if_neg hi15, if_neg hij', addFlag_reg, if_neg hi14]
  case bits =>
    rw [getLsbD_insertLow, getLsbD_addResult, addFlag_reg _ _ _ _ ⟨j.toNat, h⟩]
    simp only [fin_eq_iff_val]
    rfl
  case flags =>
    simp only [reg_setReg_advanced, @eq_comm _ (14 : Fin 16) ⟨_, _⟩, fin_eq_iff_val]
    rfl
  case ic =>
    have h15 : (addFlag (.register w j) a b s).reg 15 = s.reg 15 := addFlag_reg _ _ _ _ 15
    simp only [reg_setReg_advanced, fin_eq_iff_val, h15]
    by_cases hj : j.toNat = 15 <;> simp [hj, operandWidth]
  case named =>
    simp only [reg_setReg_advanced, fin_eq_iff_val]
    simp [hj, operandWidth]

/-- Settles O18: the flag line changes register 14 only, so the cell is written and the counter incremented as in a Mov. -/
theorem addToMemory : Obligations.AddToMemory := by
  intro value source dst a b addr s hs hv ha hp
  refine ⟨_, bytesOfValue (operandWidth dst) (addResult (operandWidth dst) a b), (addFlag dst a b s).reg 14,
    (exec_add_of_reads hs hv (writable_of_address ha)).trans (store_ok (writeOperand_of_address ha hp)),
    fun k _ => getLsbD_addFlag dst a b s k, ?state, cell_put_same _ _ _, length_bytesOfValue _ _, ?sum,
    fun x hx => cell_put_ne _ x _ _ hx⟩
  case state =>
    have h15 : (addFlag dst a b s).reg 15 = s.reg 15 := addFlag_reg _ _ _ _ 15
    rw [setMem_ic, ic_eq_reg, h15]
    conv_lhs => rw [addFlag_eq_setReg]
    rfl
  case sum =>
    rw [bytesOfValue, natOfBytes_bytesOfNat, pow_256_widthBytes, toNat_addResult]
    exact Nat.mod_mod _ _

end Sys2Proof.Machine
end

section
/-! PROOFS. Cmp, the jumps and Call (44_cmp.md, 45_jumps.md, 46_call.md). -/

namespace Sys2Proof.Machine

/-! ### Cmp -/

theorem exec_cmp_of_readable {value comparator : Operand} {s : State} (hv : readable value = true)
    (hc : readable comparator = true) :
    exec (.cmp value comparator) s = resolve value s fun a => resolve comparator s fun b => cmpFinish a b s :=
  shaped_ok (by simp [hv, hc])

theorem cmpZero_eq (a b : U64) : cmpZero a b = decide (a.toNat = b.toNat) := by
  have h : a - b = 0#64 ↔ a.toNat = b.toNat := by bv_omega
  simp only [cmpZero, beq_eq_decide, h]

theorem exec_cmp_of_reads {value comparator : Operand} {a b : U64} {s : State} (hv : readOperand value s = .ok a)
    (hc : readOperand comparator s = .ok b) :
    exec (.cmp value comparator) s = .next (((s.setZ (cmpZero a b)).setG (cmpGreater a b)).setIC (s.ic + 1)) := by
  rw [exec_cmp_of_readable (readable_of_read hv) (readable_of_read hc), resolve_ok _ hv, resolve_ok _ hc, cmpFinish, advance,
    setG_ic, setZ_ic]

/-- FLAGS after a Cmp, bit by bit (R160, decision D2). -/
theorem getLsbD_cmpFlags (s : State) (z g : Bool) (v : U64) (k : Nat) :
    ((((s.setZ z).setG g).setIC v).reg 14).getLsbD k = if k = 1 then g else if k = 0 then z else (s.reg 14).getLsbD k := by
  change ((((s.setZ z).setG g).setIC v).flags).getLsbD k = _
  rw [setIC_flags, setG_flags, setZ_flags, getLsbD_setBit _ _ _ _ (by decide), getLsbD_setBit _ _ _ _ (by decide)]
  rfl

/-- Settles O20: the lines of a Cmp in their order, the last of which set two bits of FLAGS and move IC on. -/
theorem cmpOutcome : Obligations.CmpOutcome := by
  intro value comparator s
  refine ⟨fun hn => exec_illShaped ?shape, fun k hv hc hr => ?value, fun a k hc hr hr2 => ?comparator, fun a b hr hr2 => ?done⟩
  case shape => rcases hn with rfl | rfl <;> simp [Instr.wellFormed, Operand.sourceShape]
  case value => rw [exec_cmp_of_readable (readable_of_ne_none hv) (readable_of_ne_none hc), resolve_error _ hr]
  case comparator =>
    rw [exec_cmp_of_readable (readable_of_read hr) (readable_of_ne_none hc), resolve_ok _ hr, resolve_error _ hr2]
  case done =>
    refine ⟨_, exec_cmp_of_reads hr hr2, rfl, fun i h14 h15 => ?others, setIC_ic _ _, ?z, ?g, fun k hk => ?kept⟩
    case others =>
      rw [setIC_reg_ne _ _ _ h15]
      exact (setFlag_reg_ne _ _ _ i h14).trans (setFlag_reg_ne _ _ _ i h14)
    case z => rw [getLsbD_cmpFlags, if_neg (by decide), if_pos rfl, cmpZero_eq]
    case g => rw [getLsbD_cmpFlags, if_pos rfl, cmpGreater]
    case kept => rw [getLsbD_cmpFlags, if_neg (by omega), if_neg (by omega)]

/-! ### Jumps -/

theorem exec_jmp_of_readable {src : Operand} {s : State} (h : readable src = true) :
    exec (.jmp src) s = resolve src s fun target => jumpTo target s := shaped_ok (by simp [h])

theorem exec_jz_falls {src : Operand} {s : State} (h : readable src = true) (hz : s.flagZ = false) :
    exec (.jz src) s = .next (s.setIC (s.ic + 1)) :=
  (shaped_ok (by simp [h])).trans (if_neg (ne_true_of_eq_false hz))

theorem exec_jz_error {src : Operand} {s : State} {k : ErrKind} (h : readable src = true) (hz : s.flagZ = true)
    (hr : readOperand src s = .error k) : exec (.jz src) s = .next (s.setRun (.faulted k)) :=
  (shaped_ok (by simp [h])).trans ((if_pos hz).trans (resolve_error _ hr))

theorem exec_jnz_falls {src : Operand} {s : State} (h : readable src = true) (hz : s.flagZ = true) :
    exec (.jnz src) s = .next (s.setIC (s.ic + 1)) :=
  (shaped_ok (by simp [h])).trans (if_pos hz)

theorem exec_jnz_error {src : Operand} {s : State} {k : ErrKind} (h : readable src = true) (hz : s.flagZ = false)
    (hr : readOperand src s = .error k) : exec (.jnz src) s = .next (s.setRun (.faulted k)) :=
  (shaped_ok (by simp [h])).trans ((if_neg (ne_true_of_eq_false hz)).trans (resolve_error _ hr))

/-- Settles O21: a Jmp is a read and a write of IC. -/
theorem jmpOutcome : Obligations.JmpOutcome := by
  intro src s
  refine ⟨fun hn => exec_illShaped (hn ▸ rfl), fun k hn hr => ?error, fun v hr => ?taken⟩
  case error => rw [exec_jmp_of_readable (readable_of_ne_none hn), resolve_error _ hr]
  case taken => exact ⟨_, exec_jmp_of_read hr, rfl, setIC_ic s v, fun i hi => setIC_reg_ne s v i hi⟩

/-- FLAGS after a taken Jz, bit by bit (R166). -/
theorem getLsbD_jzFlags (s : State) (v : U64) (k : Nat) :
    (((s.setZ false).setIC v).reg 14).getLsbD k = if k = 0 then false else (s.reg 14).getLsbD k := by
  change ((s.setZ false).setIC v).flags.getLsbD k = _
  rw [setIC_flags, setZ_flags, getLsbD_setBit _ _ _ _ (by decide)]
  rfl

/-- Settles O22: a taken Jz clears bit 0 of FLAGS after the read and writes IC. -/
theorem jzOutcome : Obligations.JzOutcome := by
  intro src s
  refine ⟨fun hn => exec_illShaped (hn ▸ rfl), fun hn hz => exec_jz_falls (readable_of_ne_none hn) hz,
    fun k hn hz hr => exec_jz_error (readable_of_ne_none hn) hz hr, fun v hz hr => ?taken⟩
  case taken =>
    refine ⟨_, exec_jz_taken hz hr, rfl, setIC_ic _ v, fun i h14 h15 => ?_, fun k => ?_⟩
    · rw [setIC_reg_ne _ v i h15]
      exact setFlag_reg_ne s zBit false i h14
    · rw [getLsbD_jzFlags]
      by_cases hk : k = 0 <;> simp [hk]

/-- Settles O23: neither path of a Jnz writes a flag. -/
theorem jnzOutcome : Obligations.JnzOutcome := by
  intro src s
  exact ⟨fun hn => exec_illShaped (hn ▸ rfl), fun hn hz => exec_jnz_falls (readable_of_ne_none hn) hz,
    fun k hn hz hr => exec_jnz_error (readable_of_ne_none hn) hz hr, fun v hz hr => exec_jnz_taken hz hr⟩

/-! ### Call -/

theorem exec_call_of_read {idx : Operand} {n : U64} {s : State} (hr : readOperand idx s = .ok n) :
    exec (.call idx) s =
      if n = 0#64 then advance (dump s)
      else if n ∈ s.callTable then callbackFinish (callbackOf n s) (countDraw s)
      else abort .callIndexUnknown s := by
  simp only [exec, execCall]
  rw [shaped_ok (by simp [readable_of_read hr]), resolve_ok _ hr]

/-- Settles O24: the choice of Call asks for index 0 first. -/
theorem callZeroDumps : Obligations.CallZeroDumps := by
  intro idx s hr
  rw [exec_call_of_read hr, if_pos rfl]
  rfl

/-- Settles O25: an index that is neither 0 nor in the table takes the last branch of Call. -/
theorem callUnknownIndex : Obligations.CallUnknownIndex := by
  intro idx s
  refine ⟨fun n hr h0 hn => ?_, fun k hn hr => ?_⟩
  · rw [exec_call_of_read hr, if_neg h0, if_neg hn]
    rfl
  · exact (shaped_ok (by simp [readable_of_ne_none hn])).trans (resolve_error _ hr)

/-- Settles O26: the accesses of the callback together keep what each of them keeps, and its return changes register 15 or the
run state only. -/
theorem callRunsCallback : Obligations.CallRunsCallback := by
  intro idx n s hr h0 hn
  have kept : ActKeeps s (callbackRun (callbackOf n s) (countDraw s)).2 :=
    ActKeeps.run_all _ ⟨rfl, rfl, rfl, rfl, rfl, rfl, id, id, fun _ => id, id⟩
  have finish := exec_call_registered hr h0 hn
  rw [callbackFinish] at finish
  obtain ⟨hrun, hphase, hothers, htable, hdumps, hstream, hsp, hmp, hcells, hwf⟩ := kept
  generalize hc : callbackRun (callbackOf n s) (countDraw s) = c at *
  obtain ⟨result, u⟩ := c
  cases result with
  | none =>
    exact ⟨_, u, none, finish, rfl, fun _ => ⟨rfl, hrun⟩, nofun, hstream, hothers, htable, hdumps, hphase, hsp, hmp, hcells, hwf⟩
  | some k =>
    refine ⟨_, u, some k, finish, rfl, nofun, ?_, hstream, hothers, htable, hdumps, hphase, hsp, hmp, hcells, hwf⟩
    rintro _ ⟨⟩
    rfl

end Sys2Proof.Machine
end

section
/-! PROOFS. What holds of every instruction: it answers, its errors, and what it leaves as it was (41_engine.md, 60_exceptions.md,
10_state.md R27, R32). -/

namespace Sys2Proof.Machine

/-! ### Every instruction answers -/

theorem callbackReturn_answers (result : Option ErrKind) (s : State) : ∃ t, callbackReturn result s = .next t := by
  cases result <;> exact ⟨_, rfl⟩

theorem exec_answers (i : Instr) (s : State) : ∃ t, exec i s = .next t := by
  cases hc : runsCallback i s with
  | false =>
    obtain ⟨t, ht, -⟩ := exec_ran i s hc
    exact ⟨t, ht⟩
  | true =>
    obtain ⟨idx, n, rfl, hr, h0, hn⟩ := runsCallback_cases hc
    rw [exec_call_registered hr h0 hn]
    exact callbackReturn_answers _ _

/-- Settles O28: an instruction answers, does not halt and ends where it began, between instructions. -/
theorem execAlwaysAnswers : Obligations.ExecAlwaysAnswers := by
  intro i s
  obtain ⟨t, ht⟩ := exec_answers i s
  exact ⟨t, ht, exec_noHalt i s t ht, exec_phase ht⟩

theorem ran_of_exec {i : Instr} {s t : State} (hc : runsCallback i s = false) (h : exec i s = .next t) : Ran i s t := by
  obtain ⟨u, hu, hran⟩ := exec_ran i s hc
  cases hu.symm.trans h
  exact hran

/-! ### Instructions that fail -/

/-- A write of a Mov that fails. -/
def MovWriteFails (i : Instr) (s : State) (k : ErrKind) : Prop :=
  ∃ src dst v, i = .mov src dst ∧ writable dst = true ∧ writeOperand dst v s = .error k

/-- The write of the sum of an Add that fails, after its flag line has led to `u`. -/
def AddWriteFails (i : Instr) (s u : State) (k : ErrKind) : Prop :=
  ∃ value source dst a b, i = .add value source dst ∧ readOperand source s = .ok a ∧ readOperand value s = .ok b ∧
    writable dst = true ∧ u = addFlag dst a b s ∧ writeOperand dst (addResult (operandWidth dst) a b) u = .error k

/-- The ways an instruction fails. -/
theorem Ran.failure {i : Instr} {s t : State} {k : ErrKind} (h : Ran i s t) (hs : isFaulted s = false)
    (hk : t.proc.run = .faulted k) :
    (t = s.setRun (.faulted k) ∧ (FailsEarly i s k ∨ MovWriteFails i s k)) ∨
      ∃ u, AddWriteFails i s u k ∧ t = u.setRun (.faulted k) := by
  have goesOn {u : State} (h : u.proc.run = s.proc.run) (hu : u.proc.run = .faulted k) : False := not_faulted hs k (h ▸ hu)
  cases h with
  | fail k' h' => cases hk; exact .inl ⟨rfl, .inl h'⟩
  | movError src dst v k' hi _ hd hw => cases hk; exact .inl ⟨rfl, .inr ⟨src, dst, v, hi, hd, hw⟩⟩
  | addError value source dst a b k' hi hs hv hd hw =>
    cases hk
    exact .inr ⟨_, ⟨value, source, dst, a, b, hi, hs, hv, hd, rfl, hw⟩, rfl⟩
  | mov _ _ _ u _ _ hw => exact (goesOn (writeOperand_keeps hw).1 hk).elim
  | add _ _ _ _ _ u _ _ _ hw => exact (goesOn (u := u) (writeOperand_keeps hw).1 hk).elim
  | cmp | jmp | jz | jzNot | jnz | jnzNot | dump => exact absurd hk (not_faulted hs k)

/-- The kinds that come with a read are marked for every instruction that makes one (60_exceptions.md R181). -/
theorem mayRaise_of_read {i : Instr} {s : State} {op : Operand} {k : ErrKind}
    (hz : ∀ src, (i = .jz src → s.flagZ = true) ∧ (i = .jnz src → s.flagZ = false)) (h : readOperand op s = .error k) :
    mayRaise i s.flagZ k = true := by
  rcases readOperand_errors h with rfl | rfl | ⟨rfl, -⟩ | rfl | rfl <;> cases i <;> simp_all [mayRaise]

theorem memPoisoned_of_read {s : State} {op : Operand} (h : readOperand op s = .error .memoryPoisoned) : s.ctx.memPoisoned = true := by
  simpa using readOperand_errors h

theorem FailsEarly.mayRaise {i : Instr} {s : State} {k : ErrKind} (h : FailsEarly i s k) :
    mayRaise i s.flagZ k = true ∧ (k = .memoryPoisoned → s.ctx.memPoisoned = true) := by
  rcases h with ⟨-, rfl⟩ | ⟨-, hz, op, hr⟩ | ⟨⟨idx, rfl⟩, rfl⟩
  · exact ⟨rfl, nofun⟩
  · exact ⟨mayRaise_of_read hz hr, fun hk => memPoisoned_of_read (hk ▸ hr)⟩
  · exact ⟨rfl, nofun⟩

/-- The kinds that come with a write are marked for every instruction that has a destination. -/
theorem mayRaise_of_write {i : Instr} {dst : Operand} {z : Bool} {v : U64} {s u : State} {k : ErrKind} (hi : destOf i = some dst)
    (hd : writable dst = true) (hctx : u.ctx = s.ctx) (hw : writeOperand dst v u = .error k) :
    mayRaise i z k = true ∧ (k = .memoryPoisoned → s.ctx.memPoisoned = true) := by
  rcases writeOperand_errors hd hw with rfl | ⟨rfl, hp⟩
  · exact ⟨by cases i <;> simp_all [mayRaise, destOf], nofun⟩
  · exact ⟨by cases i <;> simp_all [mayRaise, destOf], fun _ => hctx ▸ hp⟩

/-- Settles O29: an early failure is marked by its reason, and a failing write by the kinds a write can end in. -/
theorem errorKindsByInstruction : Obligations.ErrorKindsByInstruction := by
  intro i s t k hs hc h hk
  rcases (ran_of_exec hc h).failure hs hk with ⟨-, early | mov⟩ | ⟨u, add, -⟩
  · exact early.mayRaise
  · obtain ⟨src, dst, v, hi, hd, hw⟩ := mov
    exact mayRaise_of_write (by rw [hi]; rfl) hd rfl hw
  · obtain ⟨value, source, dst, a, b, hi, -, -, hd, rfl, hw⟩ := add
    exact mayRaise_of_write (u := addFlag dst a b s) (by rw [hi]; rfl) hd rfl hw

/-- Settles O30: the one failure after a change is that of an Add's write, after its flag line. -/
theorem failureChangesOnlyOverflow : Obligations.FailureChangesOnlyOverflow := by
  intro i s t k hs hc h hk
  rcases (ran_of_exec hc h).failure hs hk with ⟨ht, -⟩ | ⟨u, ⟨value, source, dst, a, b, hi, hr, hv, hd, hu, hw⟩, ht⟩
  · exact .inl ht
  · have kinds := writeOperand_errors hd hw
    have hctx : u.ctx = s.ctx := hu ▸ rfl
    rw [hctx] at kinds
    exact .inr ⟨value, source, dst, a, b, u, hi, hr, hv, hu.trans (addFlag_eq_setV dst a b s), hw, kinds, ht⟩

/-! ### The instruction counter -/

theorem writeOperand_reg_of_writesRegister {i : Instr} {dst : Operand} {v : U64} {s t : State} (j : Fin 16)
    (hd : destOf i = some dst) (hn : writesRegister i j.val = false) (hw : writeOperand dst v s = .ok t) : t.reg j = s.reg j :=
  writeOperand_reg j hw (by simpa [writesRegister, hd] using hn)

/-- Where the counter stands after an instruction that goes on. -/
theorem Ran.counter {i : Instr} {s t : State} (h : Ran i s t) (hn : writesRegister i 15 = false) (ht : isFaulted t = false) :
    (takenTarget i s = none ∧ t.reg 15 = s.reg 15 + 1) ∨
      ∃ src, takenTarget i s = some src ∧ readOperand src s = .ok (t.reg 15) := by
  cases h with
  | fail | movError | addError => cases ht
  | mov src dst v u hi hr hw =>
    have hu := writeOperand_reg_of_writesRegister 15 (by rw [hi]; rfl) hn hw
    exact .inl ⟨by rw [hi]; rfl, by rw [setIC_reg15, ic_eq_reg, hu]⟩
  | add value source dst a b u hi hs hv hw =>
    have hu := writeOperand_reg_of_writesRegister 15 (by rw [hi]; rfl) hn hw
    exact .inl ⟨by rw [hi]; rfl, by rw [setIC_reg15, ic_eq_reg, hu, addFlag_reg, if_neg (by decide)]⟩
  | cmp _ _ _ _ hi => exact .inl ⟨by rw [hi]; rfl, setIC_reg15 _ _⟩
  | dump _ hi => exact .inl ⟨by rw [hi]; rfl, setIC_reg15 _ _⟩
  | jzNot _ hi hz => exact .inl ⟨by simp [hi, takenTarget, hz], setIC_reg15 _ _⟩
  | jnzNot _ hi hz => exact .inl ⟨by simp [hi, takenTarget, hz], setIC_reg15 _ _⟩
  | jmp src v hi hr => exact .inr ⟨src, by simp [hi, takenTarget], by rwa [setIC_reg15]⟩
  | jz src v hi hz hr => exact .inr ⟨src, by simp [hi, takenTarget, hz], by rwa [setIC_reg15]⟩
  | jnz src v hi hz hr => exact .inr ⟨src, by simp [hi, takenTarget, hz], by rwa [setIC_reg15]⟩

theorem faulted_of_isFaulted {s : State} (h : isFaulted s = true) : ∃ k, s.proc.run = .faulted k := by
  cases hr : s.proc.run with
  | faulted k => exact ⟨k, rfl⟩
  | idle | running | halted => simp [isFaulted, hr] at h

/-- Settles O31: an error comes before the increment, and of the instructions that go on those that transfer write IC once. -/
theorem counterMovesOnce : Obligations.CounterMovesOnce := by
  intro i s t hs hc hn h
  have hran := ran_of_exec hc h
  refine ⟨fun ht => ?failed, fun ht hnone => ?goesOn, fun src ht hsome => ?taken⟩
  case failed =>
    obtain ⟨k, hk⟩ := faulted_of_isFaulted ht
    rcases hran.failure hs hk with ⟨rfl, -⟩ | ⟨u, ⟨_, _, _, _, _, -, -, -, -, rfl, -⟩, rfl⟩
    · rfl
    · exact addFlag_reg _ _ _ _ 15
  case goesOn =>
    rcases hran.counter hn ht with ⟨-, h15⟩ | ⟨src, hsome, -⟩
    · exact h15
    · cases hnone.symm.trans hsome
  case taken =>
    rcases hran.counter hn ht with ⟨hnone, -⟩ | ⟨src', hsome', hr⟩
    · cases hnone.symm.trans hsome
    · cases hsome'.symm.trans hsome
      exact hr

/-! ### Registers and flags -/

/-- Registers other than FLAGS and IC change only through a destination. -/
theorem Ran.reg {i : Instr} {s t : State} (h : Ran i s t) (j : Fin 16) (h14 : j ≠ 14) (h15 : j ≠ 15)
    (hn : writesRegister i j.val = false) : t.reg j = s.reg j := by
  have hflag (u : State) (k : Nat) (b : Bool) : (u.setFlag k b).reg j = u.reg j := setFlag_reg_ne u k b j h14
  cases h with
  | fail | movError => rfl
  | addError => exact hflag _ _ _
  | mov src dst v u hi hr hw =>
    rw [setIC_reg_ne _ _ _ h15, writeOperand_reg_of_writesRegister j (by rw [hi]; rfl) hn hw]
  | add value source dst a b u hi hs hv hw =>
    rw [setIC_reg_ne _ _ _ h15, writeOperand_reg_of_writesRegister j (by rw [hi]; rfl) hn hw]
    exact hflag _ _ _
  | cmp => rw [setIC_reg_ne _ _ _ h15]; exact (hflag _ _ _).trans (hflag _ _ _)
  | jz => rw [setIC_reg_ne _ _ _ h15]; exact hflag _ _ _
  | jmp | jzNot | jnz | jnzNot | dump => exact setIC_reg_ne _ _ _ h15

/-- Settles O33: such a register is neither FLAGS nor IC. -/
theorem generalRegistersFrame : Obligations.GeneralRegistersFrame := by
  intro i s t j hc h hj hn
  have h14 : j ≠ 14 := by rintro rfl; exact absurd hj (by decide)
  have h15 : j ≠ 15 := by rintro rfl; exact absurd hj (by decide)
  exact (ran_of_exec hc h).reg j h14 h15 hn

/-- Settles O32: the four instructions that write flags of their own accord, bit by bit; every other leaves register 14. -/
theorem flagsChangeOnlyAsTabled : Obligations.FlagsChangeOnlyAsTabled := by
  intro i s t k hc hn h hne
  have unchanged (e : t.reg 14 = s.reg 14) : False := hne (by rw [e])
  cases ran_of_exec hc h with
  | fail | movError => exact (unchanged rfl).elim
  | jmp | jzNot | jnz | jnzNot | dump => exact (unchanged (setIC_reg_ne _ _ 14 (by decide))).elim
  | mov src dst v u hi hr hw =>
    refine (unchanged ?_).elim
    rw [setIC_reg_ne _ _ 14 (by decide), writeOperand_reg_of_writesRegister 14 (by rw [hi]; rfl) hn hw]
  | add value source dst a b u hi hs hv hw =>
    rw [setIC_reg_ne _ _ 14 (by decide), writeOperand_reg_of_writesRegister 14 (by rw [hi]; rfl) hn hw, getLsbD_addFlag] at hne
    exact .inr (.inr ⟨by_contra fun hk => hne (if_neg hk), _, _, _, hi⟩)
  | addError value source dst a b k' hi =>
    rw [setRun_reg, getLsbD_addFlag] at hne
    exact .inr (.inr ⟨by_contra fun hk => hne (if_neg hk), _, _, _, hi⟩)
  | cmp value comparator a b hi =>
    rw [getLsbD_cmpFlags] at hne
    by_cases h1 : k = 1
    · exact .inr (.inl ⟨h1, _, _, hi⟩)
    · exact .inl ⟨by_contra fun h0 => hne (by rw [if_neg h1, if_neg h0]), .inl ⟨_, _, hi⟩⟩
  | jz src v hi hz hr =>
    rw [getLsbD_jzFlags] at hne
    exact .inl ⟨by_contra fun h0 => hne (if_neg h0), .inr ⟨⟨_, hi⟩, hz, getLsbD_jzFlags s v 0⟩⟩

/-! ### The context and the rest of the machine -/

/-- What no instruction without a callback changes outside the processor and the store. -/
theorem Ran.frame {i : Instr} {s t : State} (h : Ran i s t) :
    t.others = s.others ∧ t.callTable = s.callTable ∧ t.draws = s.draws ∧ ((∀ idx, i ≠ .call idx) → t.dumps = s.dumps) := by
  cases h with
  | mov src dst v u hi hr hw =>
    obtain ⟨-, -, ho, ht, hd, hl, -⟩ := writeOperand_keeps hw
    exact ⟨ho, ht, hd, fun _ => hl⟩
  | add value source dst a b u hi hs hv hw =>
    obtain ⟨-, -, ho, ht, hd, hl, -⟩ := writeOperand_keeps hw
    exact ⟨ho, ht, hd, fun _ => hl⟩
  | dump idx hi => exact ⟨rfl, rfl, rfl, fun hn => absurd hi (hn idx)⟩
  | fail | movError | addError | cmp | jmp | jz | jzNot | jnz | jnzNot => exact ⟨rfl, rfl, rfl, fun _ => rfl⟩

theorem Ran.ctx {i : Instr} {s t : State} (h : Ran i s t) (hm : storesToMemory i = false) : t.ctx = s.ctx := by
  cases h with
  | mov src dst v u hi hr hw => exact writeOperand_ctx (t := u) hw (by simpa [storesToMemory, destOf, hi] using hm)
  | add value source dst a b u hi hs hv hw =>
    exact writeOperand_ctx (s := addFlag dst a b s) (t := u) hw (by simpa [storesToMemory, destOf, hi] using hm)
  | fail | movError | addError | cmp | jmp | jz | jzNot | jnz | jnzNot | dump => rfl

/-- Settles O34: the frame of every outcome without a callback. -/
theorem nonStoringFrame : Obligations.NonStoringFrame :=
  fun _ _ _ hc h => ⟨(ran_of_exec hc h).ctx, (ran_of_exec hc h).frame⟩

theorem writable_of_inMemory {dst : Operand} (hm : inMemory dst = true) : writable dst = true := by
  cases dst with
  | memory | memoryRegister => rfl
  | none | immediate | register => cases hm

/-- What the last line of an instruction with a destination in memory leaves as it was. -/
theorem store_memory_frame {dst : Operand} {v : U64} {s t : State} (hm : inMemory dst = true) (h : store dst v s = .next t) :
    t.ctx = (s.setMem t.ctx.mem).ctx ∧ (∀ j : Fin 16, j ≠ 15 → t.reg j = s.reg j) ∧
      (∀ a : U64, operandAddress dst s = .ok a → ∀ b, b ≠ a.toNat → Memory.cell b t.ctx.mem = Memory.cell b s.ctx.mem) ∧
      (∀ k, operandAddress dst s = .error k → t.ctx = s.ctx) := by
  cases hw : writeOperand dst v s with
  | error k =>
    cases (store_error hw).symm.trans h
    exact ⟨rfl, fun _ _ => rfl, fun _ _ _ _ => rfl, fun _ _ => rfl⟩
  | ok u =>
    cases (store_ok hw).symm.trans h
    obtain ⟨a, ha, rfl⟩ := writeOperand_memory hm hw
    refine ⟨rfl, fun j hj => setIC_reg_ne _ _ j hj, fun a' ha' b hb => ?_, fun k hk => ?_⟩
    · cases ha.symm.trans ha'
      exact cell_put_ne _ b _ _ hb
    · cases ha.symm.trans hk

/-- A Mov fails before its write, or it is its write. -/
theorem exec_mov_cases {src dst : Operand} {s t : State} (h : exec (.mov src dst) s = .next t) :
    (∃ k, t = s.setRun (.faulted k)) ∨ ∃ v, store dst v s = .next t := by
  cases hw : (Instr.mov src dst).wellFormed with
  | false =>
    cases (exec_illShaped hw).symm.trans h
    exact .inl ⟨_, rfl⟩
  | true =>
    rw [exec_mov_of_shape hw] at h
    cases hr : readOperand src s with
    | error k =>
      cases (resolve_error _ hr).symm.trans h
      exact .inl ⟨k, rfl⟩
    | ok v => exact .inr ⟨v, (resolve_ok _ hr).symm.trans h⟩

/-- Settles O35: the write is the only line that touches the context, in an Add after the flag line. -/
theorem storingFrame : Obligations.StoringFrame := by
  refine ⟨fun src dst s t hm h => ?mov, fun value source dst x y s t hm hs hv h => ?add⟩
  case mov =>
    rcases exec_mov_cases h with ⟨k, rfl⟩ | ⟨v, hstore⟩
    · exact ⟨rfl, fun _ _ => rfl, fun _ _ _ _ => rfl, fun _ _ => rfl⟩
    · exact store_memory_frame hm hstore
  case add =>
    rw [exec_add_of_reads hs hv (writable_of_inMemory hm)] at h
    obtain ⟨hctx, hregs, hcells, hnone⟩ := store_memory_frame hm h
    refine ⟨hctx, fun j h14 h15 => ?_, hcells, hnone⟩
    rw [hregs j h15, addFlag_reg, if_neg h14]

end Sys2Proof.Machine
end

section
/-! PROOFS. The step between two instructions, and a run that is not continued (41_engine.md R131, 60_exceptions.md R188). -/

namespace Sys2Proof.Machine

/-- Settles O36: a step is the fetch, and the fetch finds the instruction the slot decodes to. -/
theorem stepRunsDecoded : Obligations.StepRunsDecoded :=
  fun _ _ _ hr hb hp hW hd => step_runs_instr hr hb hp hW hd

theorem fetchThen_poisoned {s : State} {go : Instr → Result} (h : fetch s = .poisoned) :
    fetchThen s go = .next (s.setRun (.faulted .instructionsPoisoned)) := by simp [fetchThen, h, abort]

theorem fetchThen_invalid {s : State} {go : Instr → Result} {r : Reject} (h : fetch s = .invalid r) :
    fetchThen s go = .next (s.setRun (.faulted .illegalInstruction)) := by simp [fetchThen, h, abort]

/-- Settles O39: both errors are found by the fetch. -/
theorem stepFetchErrors : Obligations.StepFetchErrors := by
  intro s hr hb
  rw [step_at_boundary hr hb]
  exact ⟨fun hp => fetchThen_poisoned (fetch_poisoned hp), fun W r hp hW hd => fetchThen_invalid (fetch_invalid hp hW hd)⟩

/-- Settles O40: a step and an access ask for the run state first, and so does `start()`. -/
theorem faultedIsRefused : Obligations.FaultedIsRefused :=
  fun _ _ h => ⟨whenRunning_faulted h, whenRunning_faulted h, by simp [hostStart, h]⟩

end Sys2Proof.Machine
end

section
/-! PROOFS. What a register or memory access neither reads nor writes (10_state.md R24, R25; 20_memory.md R52, R53; 46_call.md R177). -/

namespace Sys2Proof.Machine

/-- `f` changes nothing that a register or memory access reads, writes or poisons. -/
structure Aside (f : State → State) : Prop where
  reg : ∀ s i, (f s).reg i = s.reg i
  mem : ∀ s, (f s).ctx.mem = s.ctx.mem
  memPoisoned : ∀ s, (f s).ctx.memPoisoned = s.ctx.memPoisoned
  setReg : ∀ s i v, (f s).setReg i v = f (s.setReg i v)
  setMem : ∀ s m, (f s).setMem m = f (s.setMem m)
  poisonMemory : ∀ s, (f s).setMemPoisoned true = f (s.setMemPoisoned true)
  poisonStream : ∀ s, (f s).setStreamPoisoned true = f (s.setStreamPoisoned true)

theorem setPhase_aside (p : Phase) : Aside (State.setPhase · p) :=
  ⟨fun _ _ => rfl, fun _ => rfl, fun _ => rfl, fun _ _ _ => rfl, fun _ _ => rfl, fun _ => rfl, fun _ => rfl⟩

namespace Aside

variable {f : State → State} (hf : Aside f) (s : State)
include hf

theorem regRead (w : Width) (i : U64) : regRead w i (f s) = Machine.regRead w i s := by
  simp only [Machine.regRead, hf.reg]

theorem memRead (a : U64) (w : Width) : memRead a w (f s) = Machine.memRead a w s :=
  memRead_congr (hf.memPoisoned s) (by rw [hf.mem])

theorem regWrite (w : Width) (i v : U64) : regWrite w i v (f s) = (Machine.regWrite w i v s).map f := by
  by_cases h : i.toNat < 16
  · rw [regWrite_in w i v s h, regWrite_in w i v _ h, hf.reg, hf.setReg]
    rfl
  · rw [regWrite_out w i v s (not_lt.mp h), regWrite_out w i v _ (not_lt.mp h)]
    rfl

theorem memWrite (a : U64) (w : Width) (v : U64) : memWrite a w v (f s) = (Machine.memWrite a w v s).map f := by
  simp only [Machine.memWrite, hf.memPoisoned, hf.mem, hf.setMem]
  split <;> rfl

theorem callbackAct (a : CallbackAct) :
    callbackAct a (f s) = ((Machine.callbackAct a s).1, f (Machine.callbackAct a s).2) := by
  cases a with
  | regRead w i =>
    simp only [Machine.callbackAct, hf.regRead]
    cases Machine.regRead w i s <;> rfl
  | memRead addr w =>
    simp only [Machine.callbackAct, hf.memRead]
    cases Machine.memRead addr w s <;> rfl
  | regWrite w i v =>
    simp only [Machine.callbackAct, hf.regWrite]
    cases Machine.regWrite w i v s <;> rfl
  | memWrite addr w v =>
    simp only [Machine.callbackAct, hf.memWrite]
    cases Machine.memWrite addr w v s <;> rfl
  | poisonMemory => simp only [Machine.callbackAct, hf.poisonMemory]
  | poisonStream => simp only [Machine.callbackAct, hf.poisonStream]

end Aside
end Sys2Proof.Machine
end

section
/-! PROOFS. The other processors play no part (60_exceptions.md R196): every operation commutes with putting others in their place. -/

namespace Sys2Proof.Machine

/-- The state with these processors in place of its others. -/
def State.withOthers (o : List Proc) (s : State) : State := { s with others := o }

/-- The same in an answer. -/
def answerWithOthers (o : List Proc) (r : Result) : Result :=
  match r with
  | .next t => .next (t.withOthers o)
  | .fault f => .fault f
  | .refused r => .refused r

theorem withOthers_aside (o : List Proc) : Aside (State.withOthers o) :=
  ⟨fun _ _ => rfl, fun _ => rfl, fun _ => rfl, fun _ _ _ => rfl, fun _ _ => rfl, fun _ => rfl, fun _ => rfl⟩

section WithOthers

variable (o : List Proc) (s : State)

theorem readOperand_withOthers (op : Operand) : readOperand op (s.withOthers o) = readOperand op s := by
  cases op <;> rfl

theorem writeOperand_withOthers (op : Operand) (v : U64) :
    writeOperand op v (s.withOthers o) = (writeOperand op v s).map (State.withOthers o) := by
  cases op with
  | none | immediate _ => rfl
  | register w i => exact (withOthers_aside o).regWrite s w i v
  | memory w a => exact (withOthers_aside o).memWrite s a w v
  | memoryRegister w i =>
    by_cases h : i.toNat < 16
    · rw [writeOperand_memoryRegister_in w i v s h, writeOperand_memoryRegister_in w i v _ h]
      exact (withOthers_aside o).memWrite s (s.reg ⟨i.toNat, h⟩) w v
    · rw [writeOperand_memoryRegister_out w i v s (not_lt.mp h), writeOperand_memoryRegister_out w i v _ (not_lt.mp h)]
      rfl

theorem callbackRun_withOthers (c : CallbackTree) :
    callbackRun c (s.withOthers o) = ((callbackRun c s).1, (callbackRun c s).2.withOthers o) := by
  induction c generalizing s with
  | ret result => rfl
  | act a next ih => simp only [callbackRun, (withOthers_aside o).callbackAct, ih]

/-! ### The lines of an instruction -/

variable {o s}

theorem shaped_withOthers {sources dests : List Operand} {body body' : Result} (h : body' = answerWithOthers o body) :
    shaped sources dests (s.withOthers o) body' = answerWithOthers o (shaped sources dests s body) := by
  cases hw : sources.all readable && dests.all writable with
  | true => rw [shaped_ok hw, shaped_ok hw, h]
  | false => rw [shaped_bad hw, shaped_bad hw]; rfl

theorem resolve_withOthers {op : Operand} {rest rest' : U64 → Result} (h : ∀ v, rest' v = answerWithOthers o (rest v)) :
    resolve op (s.withOthers o) rest' = answerWithOthers o (resolve op s rest) := by
  have hread := readOperand_withOthers o s op
  cases hr : readOperand op s with
  | ok v => rw [resolve_ok _ hr, resolve_ok _ (hread.trans hr), h]
  | error k => rw [resolve_error _ hr, resolve_error _ (hread.trans hr)]; rfl

theorem store_withOthers {op : Operand} {v : U64} : store op v (s.withOthers o) = answerWithOthers o (store op v s) := by
  have hwrite := writeOperand_withOthers o s op v
  cases hw : writeOperand op v s with
  | ok t => rw [store_ok hw, store_ok (by rw [hwrite, hw]; rfl)]; rfl
  | error k => rw [store_error hw, store_error (by rw [hwrite, hw]; rfl)]; rfl

theorem ite_withOthers {p : Prop} [Decidable p] {a b a' b' : Result} (ha : a' = answerWithOthers o a)
    (hb : b' = answerWithOthers o b) : (if p then a' else b') = answerWithOthers o (if p then a else b) := by
  split <;> assumption

theorem callbackReturn_withOthers (result : Option ErrKind) :
    callbackReturn result (s.withOthers o) = answerWithOthers o (callbackReturn result s) := by
  cases result <;> rfl

theorem callbackFinish_withOthers (c : CallbackTree) :
    callbackFinish c (s.withOthers o) = answerWithOthers o (callbackFinish c s) := by
  rw [callbackFinish, callbackRun_withOthers]
  exact callbackReturn_withOthers _

theorem execJmp_withOthers (src : Operand) : execJmp src (s.withOthers o) = answerWithOthers o (execJmp src s) :=
  shaped_withOthers (resolve_withOthers fun _ => rfl)

theorem execJz_withOthers (src : Operand) : execJz src (s.withOthers o) = answerWithOthers o (execJz src s) :=
  shaped_withOthers (ite_withOthers (p := s.flagZ = true) (resolve_withOthers fun _ => rfl) rfl)

theorem execJnz_withOthers (src : Operand) : execJnz src (s.withOthers o) = answerWithOthers o (execJnz src s) :=
  shaped_withOthers (ite_withOthers (p := s.flagZ = true) rfl (resolve_withOthers fun _ => rfl))

theorem exec_withOthers (i : Instr) : exec i (s.withOthers o) = answerWithOthers o (exec i s) := by
  cases i with
  | call idx =>
    exact shaped_withOthers (resolve_withOthers fun n => ite_withOthers rfl
      (ite_withOthers (p := n ∈ s.callTable) (callbackFinish_withOthers (s := countDraw s) _) rfl))
  | mov src dst => exact shaped_withOthers (resolve_withOthers fun _ => store_withOthers)
  | jmp src => exact execJmp_withOthers src
  | jz src => exact execJz_withOthers src
  | jnz src => exact execJnz_withOthers src
  | cmp value comparator => exact shaped_withOthers (resolve_withOthers fun _ => resolve_withOthers fun _ => rfl)
  | add value source dst =>
    exact shaped_withOthers (resolve_withOthers fun a => resolve_withOthers fun b => store_withOthers (s := addFlag dst a b s))

/-! ### The step and the access -/

theorem accessFirst_withOthers (i : Instr) : accessFirst i (s.withOthers o) = answerWithOthers o (accessFirst i s) := by
  cases i with
  | call idx =>
    exact shaped_withOthers (resolve_withOthers fun n => ite_withOthers rfl (ite_withOthers (p := n ∈ s.callTable) rfl rfl))
  | mov src dst => exact shaped_withOthers (resolve_withOthers fun _ => rfl)
  | jmp src => exact execJmp_withOthers src
  | jz src => exact execJz_withOthers src
  | jnz src => exact execJnz_withOthers src
  | cmp value comparator => exact shaped_withOthers (resolve_withOthers fun _ => rfl)
  | add value source dst => exact shaped_withOthers (resolve_withOthers fun _ => rfl)

theorem fetchThen_withOthers {go go' : Instr → Result} (h : ∀ i, go' i = answerWithOthers o (go i)) :
    fetchThen (s.withOthers o) go' = answerWithOthers o (fetchThen s go) := by
  have hfetch : fetch (s.withOthers o) = fetch s := rfl
  unfold fetchThen
  rw [hfetch]
  cases fetch s with
  | poisoned | outOfRange | invalid _ => rfl
  | instr i => exact h i

theorem accessAt_withOthers (p : Phase) : accessAt p (s.withOthers o) = answerWithOthers o (accessAt p s) := by
  cases p with
  | boundary => exact fetchThen_withOthers fun _ => rfl
  | decoded i => exact accessFirst_withOthers i
  | movWrite dst v => exact store_withOthers
  | addValue value dst a => exact resolve_withOthers fun _ => rfl
  | addWrite dst result => exact store_withOthers
  | cmpSecond comparator a => exact resolve_withOthers fun _ => rfl
  | callback n draw answers =>
    cases hc : callbackAfter (Config.hostCallback n draw) answers with
    | ret result => rw [accessAt_callback_ret _ hc, accessAt_callback_ret _ hc, callbackReturn_withOthers]
    | act a next =>
      rw [accessAt_callback_act _ hc, accessAt_callback_act _ hc, (withOthers_aside o).callbackAct]
      rfl

theorem whenRunning_withOthers {go go' : Result} (h : go' = answerWithOthers o go) :
    whenRunning (s.withOthers o) go' = answerWithOthers o (whenRunning s go) := by
  cases hr : s.proc.run with
  | running => rw [whenRunning_running hr, whenRunning_running (s := s.withOthers o) hr, h]
  | idle => rw [whenRunning_idle hr, whenRunning_idle (s := s.withOthers o) hr]; rfl
  | halted => rw [whenRunning_halted hr, whenRunning_halted (s := s.withOthers o) hr]; rfl
  | faulted k => rw [whenRunning_faulted hr, whenRunning_faulted (s := s.withOthers o) hr]; rfl

theorem accessStep_withOthers : accessStep (s.withOthers o) = answerWithOthers o (accessStep s) :=
  whenRunning_withOthers (accessAt_withOthers (s := s.setPhase .boundary) s.proc.phase)

theorem step_withOthers : step (s.withOthers o) = answerWithOthers o (step s) := by
  refine whenRunning_withOthers ?_
  change (match s.proc.phase with | .boundary => _ | _ => _) = _
  cases s.proc.phase with
  | boundary => exact fetchThen_withOthers fun i => exec_withOthers i
  | _ => exact accessStep_withOthers

end WithOthers

/-- Settles O42: no line of an instruction and no access reads or writes the other processors. -/
theorem otherProcessorsDoNotMatter : Obligations.OtherProcessorsDoNotMatter :=
  fun _ _ => ⟨step_withOthers, accessStep_withOthers⟩

end Sys2Proof.Machine
end

section
/-! PROOFS. The accesses of a callback, and the accesses that make up a step (20_memory.md R63 to R65, 41_engine.md R141,
46_call.md R177). -/

namespace Sys2Proof.Machine

/-! ### One access of a callback -/

/-- The access a callback asks for is made, and its answer is one more in the progress. -/
theorem accessStep_callback_act {n : U64} {draw : Nat} {answers : List CallbackAnswer} {s : State} {a : CallbackAct}
    {next : CallbackAnswer → CallbackTree} (hr : s.proc.run = .running) (hp : s.proc.phase = .callback n draw answers)
    (hc : callbackAfter (Config.hostCallback n draw) answers = .act a next) :
    accessStep s = .next ((callbackAct a s).2.setPhase (.callback n draw (answers ++ [(callbackAct a s).1]))) := by
  rw [accessStep_running hr, hp, accessAt_callback_act _ hc, (setPhase_aside .boundary).callbackAct, setPhase_setPhase]

theorem accessStep_callback_ret {n : U64} {draw : Nat} {answers : List CallbackAnswer} {s : State} {result : Option ErrKind}
    (hr : s.proc.run = .running) (hp : s.proc.phase = .callback n draw answers)
    (hc : callbackAfter (Config.hostCallback n draw) answers = .ret result) :
    accessStep s = callbackReturn result (s.setPhase .boundary) := by
  rw [accessStep_running hr, hp, accessAt_callback_ret _ hc]

/-- Settles O56: by what the callback asks for next, and by what the accessor answers it. -/
theorem callbackAccessOutcome : Obligations.CallbackAccessOutcome := by
  refine ⟨fun n draw answers s hr hp => ?access, fun c answers a next x h => ?goesOn⟩
  case goesOn => rw [callbackAfter_snoc, h, callbackNext]
  case access =>
    cases hc : callbackAfter (Config.hostCallback n draw) answers with
    | ret result =>
      rw [accessStep_callback_ret hr hp hc]
      cases result <;> rfl
    | act a next =>
      rw [accessStep_callback_act hr hp hc]
      cases a with
      | regRead w i =>
        simp only [callbackAct]
        cases regRead w i s <;> rfl
      | memRead addr w =>
        simp only [callbackAct]
        cases memRead addr w s <;> rfl
      | regWrite w i v =>
        simp only [callbackAct]
        cases regWrite w i v s <;> rfl
      | memWrite addr w v =>
        simp only [callbackAct]
        cases memWrite addr w v s <;> rfl
      | poisonMemory | poisonStream => rfl

/-! ### Runs of accesses -/

/-- The answer `a` of an access, gone on with by at most `m` more accesses until the processor is between instructions. -/
def continueAccesses (m : Nat) (a : Result) : Result :=
  match a with
  | .next t => accessRun m t
  | .fault f => .fault f
  | .refused r => .refused r

/-- From the answer `a` of an access, the accesses that follow end in `r`. -/
def Completes (a r : Result) : Prop := ∃ n, ∀ m, n ≤ m → continueAccesses m a = r

theorem accessRun_inside {m : Nat} {s : State} (h : s.proc.phase ≠ .boundary) :
    accessRun (m + 1) s = continueAccesses m (accessStep s) := by
  rw [accessRun]
  split
  · exact absurd ‹_› h
  · rfl

namespace Completes

/-- An answer between two instructions is the end. -/
theorem done {r : Result} (h : Leads (fun t => t.proc.phase = .boundary) r) : Completes r r := by
  refine ⟨0, fun m _ => ?_⟩
  cases r with
  | next t => exact accessRun_boundary (h t rfl)
  | fault | refused => rfl

variable {s : State} {r : Result}

/-- Inside an instruction of a run, one more access is made. -/
theorem access {p : Phase} (hr : s.proc.run = .running) (hb : s.proc.phase = .boundary) (hp : p ≠ .boundary)
    (h : Completes (accessAt p s) r) : Completes (.next (s.setPhase p)) r := by
  obtain ⟨n, hn⟩ := h
  refine ⟨n + 1, fun m hm => ?_⟩
  obtain ⟨m, rfl⟩ := Nat.exists_eq_add_of_le' hm
  calc accessRun (m + n + 1) (s.setPhase p)
      = continueAccesses (m + n) (accessStep (s.setPhase p)) := accessRun_inside hp
    _ = continueAccesses (m + n) (accessAt p s) := by rw [accessStep_setPhase hr hb]
    _ = r := hn (m + n) (by omega)

theorem abort (hb : s.proc.phase = .boundary) (k : ErrKind) : Completes (.next (s.setRun (.faulted k))) (.next (s.setRun (.faulted k))) :=
  done (leads_next hb)

theorem shaped {sources dests : List Operand} {body body' : Result} (hb : s.proc.phase = .boundary) (h : Completes body body') :
    Completes (shaped sources dests s body) (Machine.shaped sources dests s body') := by
  cases hw : sources.all readable && dests.all writable with
  | true => rwa [shaped_ok hw, shaped_ok hw]
  | false => rw [shaped_bad hw, shaped_bad hw]; exact abort hb _

theorem resolve {op : Operand} {rest rest' : U64 → Result} (hb : s.proc.phase = .boundary) (h : ∀ v, Completes (rest v) (rest' v)) :
    Completes (resolve op s rest) (Machine.resolve op s rest') := by
  cases hr : readOperand op s with
  | ok v => rw [resolve_ok _ hr, resolve_ok _ hr]; exact h v
  | error k => rw [resolve_error _ hr, resolve_error _ hr]; exact abort hb k

theorem ite {p : Prop} [Decidable p] {a b a' b' : Result} (ha : Completes a a') (hb : Completes b b') :
    Completes (if p then a else b) (if p then a' else b') := by
  split <;> assumption

theorem fetchThen {go go' : Instr → Result} (hb : s.proc.phase = .boundary) (h : ∀ i, Completes (go i) (go' i)) :
    Completes (fetchThen s go) (Machine.fetchThen s go') := by
  unfold Machine.fetchThen
  cases fetch s with
  | poisoned => exact abort hb _
  | outOfRange => exact done (leads_next hb)
  | invalid _ => exact abort hb _
  | instr i => exact h i

end Completes

/-! ### The accesses of each instruction -/

/-- The accesses of a callback, and then its return. -/
theorem accessAt_callback_completes {n : U64} {draw : Nat} (c : CallbackTree) {answers : List CallbackAnswer} {s : State}
    (hr : s.proc.run = .running) (hb : s.proc.phase = .boundary)
    (hc : callbackAfter (Config.hostCallback n draw) answers = c) :
    Completes (accessAt (.callback n draw answers) s) (callbackFinish c s) := by
  induction c generalizing answers s with
  | ret result =>
    rw [accessAt_callback_ret s hc]
    exact .done ((phase_stable .boundary).callbackReturn hb result)
  | act a next ih =>
    have kept := (ActKeeps.refl s).act a
    rw [accessAt_callback_act s hc]
    refine .access (kept.run.trans hr) (kept.phase.trans hb) nofun (ih _ (kept.run.trans hr) (kept.phase.trans hb) ?_)
    rw [callbackAfter_snoc, hc, callbackNext]

theorem accessFirst_completes {s : State} (hr : s.proc.run = .running) (hb : s.proc.phase = .boundary) (i : Instr) :
    Completes (accessFirst i s) (exec i s) := by
  have stable := phase_stable .boundary
  cases i with
  | call idx =>
    refine .shaped hb (.resolve hb fun n => .ite (.done (stable.advance (s := dump s) hb)) (.ite ?_ (.abort hb _)))
    exact .access (s := countDraw s) hr hb nofun (accessAt_callback_completes _ hr hb (callbackAfter_nil _))
  | mov src dst => exact .shaped hb (.resolve hb fun v => .access hr hb nofun (.done (stable.store hb)))
  | jmp src => exact .done (stable.execJmp hb src)
  | jz src => exact .done (stable.execJz hb src)
  | jnz src => exact .done (stable.execJnz hb src)
  | cmp value comparator =>
    exact .shaped hb (.resolve hb fun a => .access hr hb nofun (.resolve hb fun b => .done (stable.cmpFinish hb a b)))
  | add value source dst =>
    refine .shaped hb (.resolve hb fun a => .access hr hb nofun (.resolve hb fun b => ?_))
    exact .access (s := addFlag dst a b s) hr hb nofun (.done (stable.store (s := addFlag dst a b s) hb))

/-- Settles O43: the fetch is the first access of a running processor, and from each decoded instruction its accesses complete it. -/
theorem accessesMakeTheStep : Obligations.AccessesMakeTheStep := by
  intro s hb
  suffices h : Completes (accessStep s) (step s) from h
  by_cases hr : s.proc.run = .running
  · have hs : s.setPhase .boundary = s := hb ▸ setPhase_self s
    rw [step_at_boundary hr hb, accessStep_running hr, hb, hs]
    exact .fetchThen hb fun i => .access hr hb nofun (accessFirst_completes hr hb i)
  · have waits : accessStep s = step s := by
      cases hrun : s.proc.run with
      | running => exact absurd hrun hr
      | idle => exact (whenRunning_idle hrun).trans (whenRunning_idle hrun).symm
      | halted => exact (whenRunning_halted hrun).trans (whenRunning_halted hrun).symm
      | faulted k => exact (whenRunning_faulted hrun).trans (whenRunning_faulted hrun).symm
    rw [waits]
    refine .done fun t ht => ?_
    exact turn_not_running hr (.inl ht) ▸ hb

end Sys2Proof.Machine
end

section
/-! PROOFS. The host's register accessors and status codes (10_state.md section 2, R39; 60_exceptions.md R180). -/

namespace Sys2Proof.Machine

/-! ### Reset and status -/

/-- Settles O47: empty store and stream, one processor between instructions. -/
theorem resetMeetsInvariant : Obligations.ResetMeetsInvariant := ⟨reset_memory_wf, Nat.two_pow_pos 64, rfl, rfl⟩

/-- Settles O48: sixteen zeros, and the fields of the reset state as they are written. -/
theorem resetValues : Obligations.ResetValues := by
  refine ⟨fun i => ?_, rfl, rfl, rfl, rfl, rfl, rfl⟩
  simp [State.reset, Proc.reset, State.reg]

/-- Settles O55: the status is read off the run state. -/
theorem statusCodes : Obligations.StatusCodes := by
  refine ⟨fun s h => ?_, fun s h => ?_, fun s k h => ?_, rfl⟩
  · simp [startStatus, startResult, h]
  · rcases h with h | h <;> simp [startStatus, startResult, h]
  · simp [startStatus, startResult, h]

/-! ### The accessors and the run state -/

theorem whenStopped_running {α : Type} {s : State} {a : Answer α} (h : s.proc.run = .running) :
    whenStopped s a = .refused .processorRunning := by simp [whenStopped, h]

theorem whenStopped_stopped {α : Type} {s : State} {a : Answer α} (h : s.proc.run ≠ .running) : whenStopped s a = a := by
  unfold whenStopped
  split
  · exact absurd ‹_› h
  all_goals rfl

/-- Settles O53: every register accessor is an unsigned one at some width, and those ask for the run state first. -/
theorem runningRefusesRegisterAccess : Obligations.RunningRefusesRegisterAccess := by
  intro w i v x f s h
  have get (w : Width) : hostRegGet w i s = .refused .processorRunning := whenStopped_running h
  have set (w : Width) (v : U64) : hostRegSet w i v s = .refused .processorRunning := whenStopped_running h
  refine ⟨get w, set w v, ?_, set w _, ?_, ?_, ?_⟩
  · rw [hostRegGetSigned, get]
  · rw [hostRegGetFloat, get]
  · rw [hostRegGetFloat, get]
  · cases f with
    | binary32 b => exact set .dword _
    | binary64 b => exact set .qword b

section Stopped

variable {w : Width} {i v : U64} {s : State} (hs : s.proc.run ≠ .running) (hi : i.toNat < 16)
include hs hi

theorem hostRegGet_stopped : hostRegGet w i s = .ok (cut w (s.reg ⟨i.toNat, hi⟩)) := by
  rw [hostRegGet, whenStopped_stopped hs, regRead_in w i s hi]
  rfl

theorem hostRegSet_stopped :
    hostRegSet w i v s = .ok (s.setReg ⟨i.toNat, hi⟩ (insertLow w (s.reg ⟨i.toNat, hi⟩) v)) := by
  rw [hostRegSet, whenStopped_stopped hs, regWrite_in w i v s hi]
  rfl

/-- The unsigned get after a set gives the value cut to the width (10_state.md R22). -/
theorem hostRegGet_after_set :
    hostRegGet w i (s.setReg ⟨i.toNat, hi⟩ (insertLow w (s.reg ⟨i.toNat, hi⟩) v)) = .ok (cut w v) := by
  rw [hostRegGet_stopped (s := s.setReg _ _) hs hi, reg_setReg_same, cut_insertLow_self]

end Stopped

theorem cut_of_fits {w : Width} {v : U64} (h : v.toNat < 2 ^ widthBits w) : cut w v = v := by
  apply BitVec.eq_of_toNat_eq
  rw [toNat_cut, Nat.mod_eq_of_lt h]

/-- Settles O50: the get cuts what the set wrote, and a value that fits is not changed by the cut. -/
theorem hostSetThenGet : Obligations.HostSetThenGet := by
  intro w i v s hi hs hv
  refine ⟨_, hostRegSet_stopped hs hi, rfl, ?_⟩
  rw [hostRegGet_after_set hs hi, cut_of_fits hv]

/-! ### The signed view (R29, decision D19) -/

/-- The signed reading of the low bytes is two's complement. -/
theorem signedOf_cut (w : Width) (v : U64) : signedOf w (cut w v) = (v.setWidth (widthBits w)).toInt := by
  have hmsb : (v.setWidth (widthBits w)).msb = (cut w v).getLsbD (widthBits w - 1) := by
    rw [BitVec.msb_setWidth, getLsbD_cut]
    have := widthBits_ge w
    simp [show 0 < widthBits w by omega]
  rw [BitVec.toInt_eq_msb_cond, hmsb, signedOf, cut_cut, toNat_cut, BitVec.toNat_setWidth,
    Int.natCast_pow]
  rfl

theorem hostRegGetSigned_stopped {w : Width} {i : U64} {s : State} (hs : s.proc.run ≠ .running) (hi : i.toNat < 16) :
    hostRegGetSigned w i s = .ok ((s.reg ⟨i.toNat, hi⟩).setWidth (widthBits w)).toInt := by
  rw [hostRegGetSigned, hostRegGet_stopped hs hi]
  exact congrArg _ (signedOf_cut w _)

/-- The low bytes of an integer hold it modulo 2^(8w). -/
theorem toNat_cut_ofInt (w : Width) (x : Int) : ((cut w (BitVec.ofInt 64 x)).toNat : Int) = x % 2 ^ widthBits w := by
  have hdvd : (2 ^ widthBits w : Int) ∣ 2 ^ 64 := pow_dvd_pow 2 (widthBits_le w)
  have hnonneg : 0 ≤ x % 2 ^ 64 := Int.emod_nonneg x (by decide)
  rw [toNat_cut, BitVec.toNat_ofInt, Int.natCast_mod, Int.natCast_pow, Int.natCast_pow, Nat.cast_ofNat,
    Int.toNat_of_nonneg hnonneg, Int.emod_emod_of_dvd x hdvd]

theorem setWidth_ofInt (w : Width) (x : Int) : (BitVec.ofInt 64 x).setWidth (widthBits w) = BitVec.ofInt (widthBits w) x := by
  apply BitVec.eq_of_toNat_eq
  have h := toNat_cut_ofInt w x
  rw [toNat_cut] at h
  rw [BitVec.toNat_setWidth, BitVec.toNat_ofInt (n := widthBits w), Int.natCast_pow, Nat.cast_ofNat, ← h, Int.toNat_natCast]

theorem setWidth_insertLow (w : Width) (old v : U64) :
    (insertLow w old v).setWidth (widthBits w) = v.setWidth (widthBits w) := by
  apply BitVec.eq_of_getLsbD_eq
  intro k hk
  simp [hk, getLsbD_insertLow]

/-- Settles O51: the set writes the low bytes of the integer modulo 2^64, whose signed reading is the integer where it is in range. -/
theorem signedViewIsTwosComplement : Obligations.SignedViewIsTwosComplement := by
  intro w i s hi hs
  refine ⟨hostRegGetSigned_stopped hs hi, fun x hlo hhi => ⟨_, _, hostRegSet_stopped hs hi, ?signed, hostRegGet_after_set hs hi,
    toNat_cut_ofInt w x, fun k hk => ?above⟩⟩
  case signed =>
    rw [hostRegGetSigned_stopped (s := s.setReg _ _) hs hi, reg_setReg_same, setWidth_insertLow, setWidth_ofInt]
    have hpos : 0 < widthBits w := Nat.lt_of_lt_of_le (by decide) (widthBits_ge w)
    exact congrArg _ (BitVec.toInt_ofInt_eq_self hpos hlo hhi)
  case above =>
    rw [getLsbD_reg_setReg_insertLow]
    exact if_neg (not_lt.mpr hk)

/-! ### The float view (R30, decision D19) -/

theorem setWidth32_cut_dword (v : U64) : (cut .dword v).setWidth 32 = v.extractLsb' 0 32 := by
  apply BitVec.eq_of_getLsbD_eq
  intro k hk
  have hw : k < widthBits .dword := hk
  simp [getLsbD_cut, hk, hw]

theorem cut_dword_setWidth64 (b : BitVec 32) : cut .dword (b.setWidth 64) = b.setWidth 64 :=
  cut_of_fits (by rw [BitVec.toNat_setWidth]; exact (Nat.mod_le _ _).trans_lt b.isLt)

/-- Settles O52: a float accessor is the unsigned one of its width, with the pattern as the value. -/
theorem floatViewMovesBits : Obligations.FloatViewMovesBits := by
  intro i s hi hs
  refine ⟨rfl, rfl, ?get32, ?get64, fun b => ⟨_, hostRegSet_stopped hs hi, ?set32, ?unsigned32, fun k hk => ?bits⟩,
    fun b => ⟨_, hostRegSet_stopped hs hi, ?set64, ?unsigned64, ?reg⟩⟩
  case get32 => rw [hostRegGetFloat, hostRegGet_stopped hs hi, ← setWidth32_cut_dword]
  case get64 => rw [hostRegGetFloat, hostRegGet_stopped hs hi, cut_qword]
  case set32 =>
    rw [hostRegGetFloat, hostRegGet_after_set hs hi, cut_dword_setWidth64]
    simp
  case unsigned32 => rw [hostRegGet_after_set hs hi, cut_dword_setWidth64]
  case bits =>
    rw [getLsbD_reg_setReg_insertLow]
    change (if k < 32 then _ else _) = _
    by_cases h32 : k < 32 <;> simp [h32, hk]
  case set64 => rw [hostRegGetFloat, hostRegGet_after_set hs hi, cut_qword]
  case unsigned64 => rw [hostRegGet_after_set hs hi, cut_qword]
  case reg => rw [reg_setReg_same, insertLow_qword]

end Sys2Proof.Machine
end

section
/-! PROOFS. Loading the stream (20_memory.md R67, 30_encoding.md R93). -/

namespace Sys2Proof

/-! ### The slots of a binary image -/

/-- Byte `j` of a slot of 32 bytes holds its bits `8*j` and up (R84). -/
theorem getElem?_of_ofBytes {bs : List Byte} {j : Nat} (hlen : bs.length = 32) (hj : j < 32) :
    bs[j]? = some ((Slot.ofBytes bs).extractLsb' (8 * j) 8) := by
  have hlt : natOfBytes bs < 2 ^ 256 := by simpa [hlen] using Machine.natOfBytes_lt bs
  have hbytes : bytesOfNat 32 (natOfBytes bs) = bs := hlen ▸ Machine.bytesOfNat_natOfBytes bs
  conv_lhs => rw [← hbytes]
  rw [Machine.getElem?_bytesOfNat _ _ _ hj, Slot.ofBytes, BitVec.extractLsb', BitVec.toNat_ofNat, Nat.mod_eq_of_lt hlt,
    Nat.shiftRight_eq_div_pow, Nat.pow_mul]

theorem getElem?_imageSlot {image : List Byte} {L k j : Nat} (hlen : image.length = 32 * L) (hk : k < L) (hj : j < 32) :
    image[32 * k + j]? = some ((imageSlot image k).extractLsb' (8 * j) 8) := by
  have hslot : ((image.drop (32 * k)).take 32).length = 32 := by simp [hlen]; omega
  rw [imageSlot, ← getElem?_of_ofBytes hslot hj, List.getElem?_take_of_lt hj, List.getElem?_drop]

theorem length_imageSlots (image : List Byte) : (imageSlots image).length = image.length / 32 := by simp [imageSlots]

theorem getElem?_imageSlots {image : List Byte} {k : Nat} (hk : k < image.length / 32) :
    (imageSlots image)[k]? = some (imageSlot image k) := by simp [imageSlots, hk]

/-- The slots of an image that begins with the bytes of a slot. -/
theorem imageSlots_append (W : Slot) (image : List Byte) : imageSlots (W.toBytes ++ image) = W :: imageSlots image := by
  have hlen : (W.toBytes ++ image).length / 32 = image.length / 32 + 1 := by
    rw [List.length_append, length_toBytes]; omega
  have hfirst : imageSlot (W.toBytes ++ image) 0 = W := by
    rw [imageSlot, Nat.mul_zero, List.drop_zero, List.take_left' (length_toBytes W), ofBytes_toBytes]
  have hrest (k : Nat) : imageSlot (W.toBytes ++ image) (k + 1) = imageSlot image k := by
    have e : 32 * (k + 1) = W.toBytes.length + 32 * k := by rw [length_toBytes]; omega
    rw [imageSlot, imageSlot, e, List.drop_length_add_append]
  rw [imageSlots, hlen, List.range_succ_eq_map, List.map_cons, hfirst, List.map_map, imageSlots]
  exact congrArg _ (List.map_congr_left fun k _ => hrest k)

theorem imageSlots_encodeImage (is : List Instr) : imageSlots (encodeImage is) = is.map encode := by
  induction is with
  | nil => rfl
  | cons i is ih =>
    rw [List.map_cons, ← ih]
    exact imageSlots_append (encode i) (encodeImage is)

theorem length_encodeImage (is : List Instr) : (encodeImage is).length % 32 = 0 := by
  induction is with
  | nil => rfl
  | cons i is ih =>
    have h : (encodeImage (i :: is)).length = 32 + (encodeImage is).length := by
      simp [encodeImage, encodeBytes, length_toBytes]
    omega

end Sys2Proof

namespace Sys2Proof.Machine

/-! ### The load -/

theorem hostLoadSlots_poisoned {slots : List Slot} {s : State} (hp : s.ctx.streamPoisoned = true) :
    hostLoadSlots slots s = .error .instructionsPoisoned := by simp [hostLoadSlots, hp]

theorem hostLoadSlots_ok {slots : List Slot} {s : State} (hp : s.ctx.streamPoisoned = false) (hl : slots.length < 2 ^ 64) :
    hostLoadSlots slots s = .ok (s.setStream slots) := by
  rw [hostLoadSlots, if_neg (ne_true_of_eq_false hp), if_neg (not_le.mpr hl)]

theorem of_hostLoadSlots {slots : List Slot} {s t : State} (h : hostLoadSlots slots s = .ok t) :
    slots.length < 2 ^ 64 ∧ t = s.setStream slots := by
  unfold hostLoadSlots at h
  split at h
  · cases h
  · split at h
    · cases h
    · cases h
      exact ⟨not_le.mp ‹_›, rfl⟩

theorem hostLoadImage_slots {image : List Byte} {s : State} (h : image.length % 32 = 0) :
    hostLoadImage image s = hostLoadSlots (imageSlots image) s := if_neg (not_not.mpr h)

/-- Settles O49: a processor of the context fetches by its own IC from the list of encoded instructions. -/
theorem loadReplacesOnlyTheStream : Obligations.LoadReplacesOnlyTheStream := by
  intro is s
  refine ⟨hostLoadSlots_poisoned, fun hp hl => ⟨_, hostLoadSlots_ok hp (by simpa using hl), rfl, fun u hu => ?_⟩⟩
  refine ⟨fun i hi => ?_, fun hle => ?_⟩
  · refine fetch_instr (hu ▸ hp) (W := encode i) ?_ (decode_encode i)
    rw [hu, setStream_ctx_stream, List.getElem?_map, ic_eq_reg, hi]
    rfl
  · exact fetch_outOfRange (hu ▸ hp) (by simpa [hu, ic_eq_reg] using hle)

/-- Settles O59: the image is cut into its slots, which are loaded as they are. -/
theorem loadImageIsItsSlots : Obligations.LoadImageIsItsSlots := by
  refine ⟨fun image L s hlen hL hp => ?slots, fun is s => ?encoded⟩
  case encoded => rw [hostLoadImage_slots (length_encodeImage is), imageSlots_encodeImage, hostLoad]
  case slots =>
    have hcount : image.length / 32 = L := by omega
    have hslots : (imageSlots image).length = L := (length_imageSlots image).trans hcount
    refine ⟨_, (hostLoadImage_slots (by omega)).trans (hostLoadSlots_ok hp (hslots ▸ hL)), rfl, hslots, fun k hk => ?_⟩
    have hW := getElem?_imageSlots (hcount.symm ▸ hk)
    exact ⟨_, hW, fun j hj => getElem?_imageSlot hlen hk hj, fun u r hu hic hd => fetch_invalid (hu ▸ hp) (hu ▸ hic.symm ▸ hW) hd⟩

end Sys2Proof.Machine
end

section
/-! PROOFS. The actions of the host (10_state.md section 2, R39; 41_engine.md R130; 60_exceptions.md R195 to R198). -/

namespace Sys2Proof.Machine

/-! ### Which processor is in focus -/

theorem of_hostFocus {k : Nat} {s t : State} (h : hostFocus k s = .ok t) :
    ∃ p, s.others[k]? = some p ∧ t = { s with proc := p, others := s.others.set k s.proc } := by
  unfold hostFocus at h
  split at h
  · cases h
  · cases h
    exact ⟨_, ‹_›, rfl⟩

theorem hostFocus_ok {k : Nat} {s : State} {p : Proc} (h : s.others[k]? = some p) :
    hostFocus k s = .ok { s with proc := p, others := s.others.set k s.proc } := by simp [hostFocus, h]

/-- Settles O54: the two processors change places, so the same exchange brings each back to its own. -/
theorem focusIsUndone : Obligations.FocusIsUndone := by
  intro k s t h
  obtain ⟨p, hp, rfl⟩ := of_hostFocus h
  obtain ⟨hk, hget⟩ := List.getElem?_eq_some_iff.mp hp
  have hback : (s.others.set k s.proc)[k]? = some s.proc := List.getElem?_set_self hk
  refine ⟨rfl, hp, hback, ?_⟩
  rw [hostFocus_ok (s := { s with proc := p, others := s.others.set k s.proc }) hback]
  simp only [List.set_set, ← hget, List.set_getElem_self]

/-! ### What an action does to the processors and to the context -/

/-- What an action of the host does to the processors. -/
inductive HostMoves (a : HostAction) (s t : State) : Prop
  | none (hp : t.proc = s.proc) (ho : t.others = s.others)
  | start (ha : a = .start) (hs : s.proc.run ≠ .running) (hphase : t.proc.phase = s.proc.phase) (ho : t.others = s.others)
  | stopped (hs : s.proc.run ≠ .running) (ht : t.proc.run ≠ .running)
      (hphase : t.proc.phase = s.proc.phase ∨ t.proc.phase = .boundary) (ho : t.others = s.others)
  | create (hp : t.proc = s.proc) (ho : t.others = s.others ++ [Proc.reset])
  | focus (k : Nat) (hk : s.others[k]? = some t.proc) (ho : t.others = s.others.set k s.proc)

theorem of_whenStopped {s t : State} {a : Answer State} (h : whenStopped s a = .ok t) : s.proc.run ≠ .running ∧ a = .ok t := by
  have hs : s.proc.run ≠ .running := fun hr => by cases (whenStopped_running hr).symm.trans h
  exact ⟨hs, (whenStopped_stopped hs).symm.trans h⟩

theorem of_hostRegSet {w : Width} {i v : U64} {s t : State} (h : hostRegSet w i v s = .ok t) :
    s.proc.run ≠ .running ∧ t = s.setRegs t.proc.regs := by
  obtain ⟨hs, h⟩ := of_whenStopped h
  rcases regWrite_cases w i v s with ⟨hi, e⟩ | e
  · rw [e] at h
    cases h
    exact ⟨hs, rfl⟩
  · rw [e] at h
    cases h

theorem of_hostMemSet {addr : U64} {w : Width} {v : U64} {s t : State} (h : hostMemSet addr w v s = .ok t) :
    t = s.setMem (Memory.put addr.toNat (bytesOfValue w v) s.ctx.mem) := by
  rcases memWrite_cases addr w v s with ⟨-, e⟩ | ⟨-, e⟩ <;> rw [hostMemSet, e] at h <;> cases h
  rfl

theorem of_hostStart {s t : State} (h : hostStart s = .ok t) :
    s.proc.run ≠ .running ∧ t = s.setRun .running := by
  unfold hostStart at h
  split at h
  · cases h; exact ⟨by simp [*], rfl⟩
  · cases h; exact ⟨by simp [*], rfl⟩
  · cases h
  · cases h

theorem of_hostLoadImage {image : List Byte} {s t : State} (h : hostLoadImage image s = .ok t) :
    ∃ slots : List Slot, slots.length < 2 ^ 64 ∧ t = s.setStream slots := by
  unfold hostLoadImage at h
  split at h
  · cases h
  · exact ⟨_, of_hostLoadSlots h⟩

theorem of_hostResetContext {s t : State} (h : hostResetContext s = .ok t) : t = { s with ctx := Context.reset } := by
  unfold hostResetContext at h
  split at h
  · cases h; rfl
  · cases h

theorem hostAct_moves {a : HostAction} {s t : State} (h : hostAct a s = .ok t) : HostMoves a s t := by
  have set {w : Width} {i v : U64} (h : hostRegSet w i v s = .ok t) : HostMoves a s t := by
    obtain ⟨hs, ht⟩ := of_hostRegSet h
    exact .stopped hs (by rwa [ht]) (.inl (by rw [ht]; rfl)) (by rw [ht]; rfl)
  cases a with
  | start =>
    obtain ⟨hs, rfl⟩ := of_hostStart h
    exact .start rfl hs rfl rfl
  | load is =>
    obtain ⟨-, rfl⟩ := of_hostLoadSlots h
    exact .none rfl rfl
  | loadImage image =>
    obtain ⟨slots, -, rfl⟩ := of_hostLoadImage h
    exact .none rfl rfl
  | regSet w i v => exact set h
  | regSetSigned w i x => exact set h
  | regSetFloat i x =>
    cases x with
    | binary32 b => exact set h
    | binary64 b => exact set h
  | memSet addr w v =>
    cases of_hostMemSet h
    exact .none rfl rfl
  | focus k =>
    obtain ⟨p, hp, rfl⟩ := of_hostFocus h
    exact .focus k hp rfl
  | resetProcessor =>
    obtain ⟨hs, ht⟩ := of_whenStopped h
    cases ht
    exact .stopped hs nofun (.inr rfl) rfl
  | resetContext =>
    cases of_hostResetContext h
    exact .none rfl rfl
  | create => cases h; exact .create rfl rfl
  | register | unregister | poisonStream | poisonMemory => cases h; exact .none rfl rfl

/-- The store stays canonical and the stream below its bound. -/
theorem hostAct_context {a : HostAction} {s t : State} (h : hostAct a s = .ok t) (hwf : Memory.wf s.ctx.mem = true)
    (hlen : s.ctx.stream.length < 2 ^ 64) : Memory.wf t.ctx.mem = true ∧ t.ctx.stream.length < 2 ^ 64 := by
  have set {w : Width} {i v : U64} (h : hostRegSet w i v s = .ok t) : Memory.wf t.ctx.mem = true ∧ t.ctx.stream.length < 2 ^ 64 := by
    obtain ⟨-, ht⟩ := of_hostRegSet h
    rw [ht]
    exact ⟨hwf, hlen⟩
  cases a with
  | load is =>
    obtain ⟨hl, rfl⟩ := of_hostLoadSlots h
    exact ⟨hwf, hl⟩
  | loadImage image =>
    obtain ⟨slots, hl, rfl⟩ := of_hostLoadImage h
    exact ⟨hwf, hl⟩
  | regSet w i v => exact set h
  | regSetSigned w i x => exact set h
  | regSetFloat i x =>
    cases x with
    | binary32 b => exact set h
    | binary64 b => exact set h
  | memSet addr w v =>
    cases of_hostMemSet h
    exact ⟨wf_put _ _ _ hwf addr.isLt (cellSizeOK_bytesOfValue w v), hlen⟩
  | resetContext =>
    cases of_hostResetContext h
    exact ⟨rfl, Nat.two_pow_pos 64⟩
  | start =>
    obtain ⟨-, rfl⟩ := of_hostStart h
    exact ⟨hwf, hlen⟩
  | focus k =>
    obtain ⟨p, -, rfl⟩ := of_hostFocus h
    exact ⟨hwf, hlen⟩
  | resetProcessor =>
    obtain ⟨-, ht⟩ := of_whenStopped h
    cases ht
    exact ⟨hwf, hlen⟩
  | create | register | unregister | poisonStream | poisonMemory => cases h; exact ⟨hwf, hlen⟩

/-- A processor that does not run is between instructions. -/
theorem boundary_of_procOK {p : Proc} (h : procOK p = true) (hr : p.run ≠ .running) : p.phase = .boundary := by
  simp only [procOK, Bool.and_eq_true, Bool.or_eq_true, beq_iff_eq] at h
  exact h.2.resolve_right hr

/-- Settles O46: an action changes the progress of no processor but to reset it, and a processor it starts or sets is not running. -/
theorem hostActKeepsInvariant : Obligations.HostActKeepsInvariant := by
  intro a s t hs h
  obtain ⟨hwf, hlen, hp, ho⟩ := hs
  obtain ⟨hwf', hlen'⟩ := hostAct_context h hwf hlen
  refine ⟨hwf', hlen', ?_⟩
  cases hostAct_moves h with
  | none hp' ho' => rw [hp', ho']; exact ⟨hp, ho⟩
  | start _ hstop hphase ho' =>
    exact ⟨procOK_of_boundary (hphase.trans (boundary_of_procOK hp hstop)), ho' ▸ ho⟩
  | stopped hstop _ hphase ho' =>
    exact ⟨procOK_of_boundary (hphase.elim (·.trans (boundary_of_procOK hp hstop)) id), ho' ▸ ho⟩
  | create hp' ho' =>
    rw [hp', ho', List.all_append, ho]
    exact ⟨hp, rfl⟩
  | focus k hk ho' =>
    rw [List.all_eq_true] at ho
    refine ⟨ho _ (List.mem_of_getElem? hk), ?_⟩
    rw [ho', List.all_eq_true]
    intro q hq
    rcases List.mem_or_eq_of_mem_set hq with hq | rfl
    · exact ho q hq
    · exact hp

/-! ### Who runs -/

theorem hostStart_stopped {s : State} (h : s.proc.run = .idle ∨ s.proc.run = .halted) : hostStart s = .ok (s.setRun .running) := by
  rcases h with h | h <;> simp [hostStart, h, begin]

/-- No action but `start()` makes a processor run. -/
theorem HostMoves.ran_before {a : HostAction} {s t : State} (h : HostMoves a s t) (ha : a ≠ .start) {p : Proc}
    (hp : p ∈ t.proc :: t.others) (hr : p.run = .running) : p ∈ s.proc :: s.others := by
  cases h with
  | none hp' ho' => rwa [hp', ho'] at hp
  | start ha' => exact absurd ha' ha
  | stopped _ hstop _ ho' =>
    rw [ho'] at hp
    rcases List.mem_cons.mp hp with rfl | hp
    · exact absurd hr hstop
    · exact List.mem_cons_of_mem _ hp
  | create hp' ho' =>
    rw [hp', ho', ← List.cons_append] at hp
    rcases List.mem_append.mp hp with hp | hp
    · exact hp
    · rw [List.mem_singleton.mp hp] at hr
      cases hr
  | focus k hk ho' =>
    rw [ho'] at hp
    rcases List.mem_cons.mp hp with rfl | hp
    · exact List.mem_cons_of_mem _ (List.mem_of_getElem? hk)
    · rcases List.mem_or_eq_of_mem_set hp with hp | rfl
      · exact List.mem_cons_of_mem _ hp
      · exact List.mem_cons_self

/-- No action stops or changes a processor that runs. -/
theorem HostMoves.runs_on {a : HostAction} {s t : State} (h : HostMoves a s t) {p : Proc}
    (hp : p ∈ s.proc :: s.others) (hr : p.run = .running) : p ∈ t.proc :: t.others := by
  have waiting (hs : s.proc.run ≠ .running) : p ∈ s.others :=
    (List.mem_cons.mp hp).resolve_left fun e => hs (e ▸ hr)
  cases h with
  | none hp' ho' => rwa [hp', ho']
  | start _ hs _ ho' => exact List.mem_cons_of_mem _ (ho' ▸ waiting hs)
  | stopped hs _ _ ho' => exact List.mem_cons_of_mem _ (ho' ▸ waiting hs)
  | create hp' ho' =>
    rw [hp', ho', ← List.cons_append]
    exact List.mem_append_left _ hp
  | focus k hk ho' =>
    rw [ho']
    obtain ⟨hlt, -⟩ := List.getElem?_eq_some_iff.mp hk
    rcases List.mem_cons.mp hp with rfl | hp
    · exact List.mem_cons_of_mem _ (List.mem_set hlt _)
    · obtain ⟨j, hj⟩ := List.mem_iff_getElem?.mp hp
      by_cases hkj : k = j
      · subst hkj
        cases hk.symm.trans hj
        exact List.mem_cons_self
      · exact List.mem_cons_of_mem _ (List.mem_of_getElem? ((List.getElem?_set_ne hkj).trans hj))

/-- Settles O60: by what a turn does to a processor that does not run, and by what each host action does to the processors. -/
theorem onlyStartMakesAProcessorRun : Obligations.OnlyStartMakesAProcessorRun := by
  refine ⟨fun s h => ⟨?step, ?access, hostStart_stopped h⟩, fun s h => by simp [hostStart, h], fun s hh hb hp hl => ?again,
    fun s t h ht => ?turn, fun a s t h => ⟨fun ha p => (hostAct_moves h).ran_before ha, fun p => (hostAct_moves h).runs_on⟩⟩
  case step => exact h.elim whenRunning_idle whenRunning_halted
  case access => exact h.elim whenRunning_idle whenRunning_halted
  case again =>
    refine ⟨_, hostStart_stopped (.inr hh), (step_past_the_end (s := s.setRun .running) rfl hb hp hl).trans ?_⟩
    rw [setRun_setRun, ← hh, setRun_self]
  case turn =>
    by_contra hr
    exact hr (turn_not_running hr h ▸ ht)

end Sys2Proof.Machine
end
